-- ==== Sys2Proof/Word.lean ====
section
/-! DEFINITION. The machine's word types and the two operand widths (spec 00_scope.md R4, R6, R7). -/

namespace Sys2Proof

/-- A byte: 8 bits (R4). -/
abbrev Byte := BitVec 8

/-- An instruction word: 32 bits, bit 31 the leftmost column of a diagram (R4, R6, R50). -/
abbrev InstrWord := BitVec 32

/-- The contents of a general register under its `X` name: 64 bits (R4, R10). -/
abbrev Word64 := BitVec 64

/-- A byte address: 64 bits (R4, R30). Address arithmetic is modulo 2^64 (R16, R140). -/
abbrev Addr := BitVec 64

/-- The width bit `x` of an encoding: 0 chooses the `W` names, 1 the `X` names (R9, R52). -/
inductive Width where
  /-- x = 0: 32-bit operands, `W` names. -/
  | w32
  /-- x = 1: 64-bit operands, `X` names. -/
  | x64
deriving DecidableEq, Repr

/-- The operand width `N` in bits (R7). -/
abbrev Width.bits : Width → Nat
  | .w32 => 32
  | .x64 => 64

/-- The same width in bytes: the access size of LDR and STR (R39, R140). -/
abbrev Width.bytes : Width → Nat
  | .w32 => 4
  | .x64 => 8

end Sys2Proof
end

