-- ==== Sys2Proof/Config.lean ====
section
/-! DEFINITION. The types of the parameters the spec leaves open (00_scope.md R5) and the values a
model may leave uninterpreted (43_multiply_divide.md R110; 92_eei_decisions.md D11). The values the
parameters take at launch stand in `Sys2Proof.Machine.Launch`; the free values below have no body. -/

namespace Sys2Proof

/-- `COND1111`: the meaning of `cond = 1111` in B.cond (R5, R80, D14). -/
inductive Cond1111 where
  /-- The word is unallocated (the default). -/
  | refuse
  /-- 1111 is treated like 1110. -/
  | always
deriving DecidableEq, Repr

/-- `SHIFT_REG_AMOUNT`: how LSL/LSR (register) treat an amount of at least the width (R5, R127, D12). -/
inductive ShiftRegAmount where
  /-- The amount is taken modulo the width (the default). -/
  | modulo
  /-- Every amount of at least the width gives 0. -/
  | saturate
deriving DecidableEq, Repr

/-- `DIV_ZERO`: the result of a division by zero (R5, R110, D11, U14). -/
inductive DivZero where
  /-- The result is 0 (the default). -/
  | zero
  /-- The result is left uninterpreted: `Config.divZeroValue`, a free value. -/
  | uninterpreted
deriving DecidableEq, Repr

/-- `DIV_OVERFLOW`: the result of SDIV of the most negative value by -1 (R5, R110, D11, U15). -/
inductive DivOverflow where
  /-- The quotient wraps to the dividend (the default). -/
  | wrap
  /-- The result is left uninterpreted: `Config.divOverflowValue`, a free value. -/
  | uninterpreted
deriving DecidableEq, Repr

/-- The parameters the decoder depends on (R5, R67 to R69, R80). -/
structure DecodeParams where
  /-- `COND1111`. -/
  cond1111 : Cond1111
  /-- `ADMIT_SHIFT_ENCODINGS`: whether the encodings of R68 and R69 are decoded. -/
  admitShiftEncodings : Bool
deriving DecidableEq, Repr

/-- The free value of a division by zero under `DIV_ZERO = uninterpreted`, a function of the
instruction (signed or not), the width and the dividend (log entry 8). -/
opaque Config.divZeroValue : (signed : Bool) → (N : Nat) → (dividend : BitVec N) → BitVec N

/-- The free value of SDIV's overflow case under `DIV_OVERFLOW = uninterpreted`; the operands are
fixed by the case, so only the width is left (log entry 8). -/
opaque Config.divOverflowValue : (N : Nat) → BitVec N

end Sys2Proof
end

