-- ==== Sys2Proof/Syntax.lean ====
section
/-! DEFINITION. The instruction set: the 39 instructions of 00_scope.md R3, one constructor each.
`spec/opcode_table.json` lists an instruction of two widths as two rows with one mnemonic; here the
width bit `x` is the operand `w`. -/

namespace Sys2Proof

/-- A general register number, 0 to 30 (R10). The value 31 of a field names no register (R13), so it
is not a value of this type: the decoder refuses it. -/
abbrev Reg := Fin 31

/-- The link register X30 (R9, R14). -/
abbrev Reg.lr : Reg := 30

/-- The 15 conditions of B.cond (R80). The value 1111 has no row in the source's table. -/
inductive Cond where
  | eq | ne | cs | cc | mi | pl | vs | vc | hi | ls | ge | lt | gt | le | al
deriving DecidableEq, Repr

/-- One instruction. Register operands stand in the order of the assembly syntax (R76): destination,
first source, second source. Immediate operands are the encoded fields of R52. -/
inductive Instr where
  /-- B label (R81). -/
  | b (imm26 : BitVec 26)
  /-- B.cond label (R82). -/
  | bCond (cond : Cond) (imm19 : BitVec 19)
  /-- BR Xn (R83). -/
  | br (n : Reg)
  /-- BL label (R84). -/
  | bl (imm26 : BitVec 26)
  /-- BLR Xn (R85). -/
  | blr (n : Reg)
  /-- CMP Rn, Rm (R90). -/
  | cmpReg (w : Width) (n m : Reg)
  /-- CMP Rn, #imm (R91). -/
  | cmpImm (w : Width) (n : Reg) (imm12 : BitVec 12)
  /-- ADD Rd, Rn, #imm12 (R97). -/
  | addImm (w : Width) (d n : Reg) (imm12 : BitVec 12)
  /-- ADDS Rd, Rn, #imm12 (R98). -/
  | addsImm (w : Width) (d n : Reg) (imm12 : BitVec 12)
  /-- SUB Rd, Rn, #imm12 (R99). -/
  | subImm (w : Width) (d n : Reg) (imm12 : BitVec 12)
  /-- SUBS Rd, Rn, #imm12 (R100). -/
  | subsImm (w : Width) (d n : Reg) (imm12 : BitVec 12)
  /-- ADD Rd, Rn, Rm (R101). -/
  | addReg (w : Width) (d n m : Reg)
  /-- ADDS Rd, Rn, Rm (R102). -/
  | addsReg (w : Width) (d n m : Reg)
  /-- SUB Rd, Rn, Rm (R103). -/
  | subReg (w : Width) (d n m : Reg)
  /-- SUBS Rd, Rn, Rm (R104). -/
  | subsReg (w : Width) (d n m : Reg)
  /-- ADC Rd, Rn, Rm (R105). -/
  | adc (w : Width) (d n m : Reg)
  /-- ADCS Rd, Rn, Rm (R106). -/
  | adcs (w : Width) (d n m : Reg)
  /-- SBC Rd, Rn, Rm (R107). -/
  | sbc (w : Width) (d n m : Reg)
  /-- SBCS Rd, Rn, Rm (R108). -/
  | sbcs (w : Width) (d n m : Reg)
  /-- MUL Rd, Rn, Rm (R111). -/
  | mul (w : Width) (d n m : Reg)
  /-- MADD Rd, Rn, Rm, Ra (R112). -/
  | madd (w : Width) (d n m a : Reg)
  /-- UDIV Rd, Rn, Rm (R113). -/
  | udiv (w : Width) (d n m : Reg)
  /-- SDIV Rd, Rn, Rm (R114). -/
  | sdiv (w : Width) (d n m : Reg)
  /-- AND Rd, Rn, Rm (R121). -/
  | and (w : Width) (d n m : Reg)
  /-- ANDS Rd, Rn, Rm (R122). -/
  | ands (w : Width) (d n m : Reg)
  /-- ORR Rd, Rn, Rm (R123). -/
  | orr (w : Width) (d n m : Reg)
  /-- ORN Rd, Rn, Rm (R124). -/
  | orn (w : Width) (d n m : Reg)
  /-- EOR Rd, Rn, Rm (R125). -/
  | eor (w : Width) (d n m : Reg)
  /-- EON Rd, Rn, Rm (R126). -/
  | eon (w : Width) (d n m : Reg)
  /-- LSL Rd, Rn, #shift (R128). -/
  | lslImm (w : Width) (d n : Reg) (shift : BitVec 6)
  /-- LSL Rd, Rn, Rm (R129). -/
  | lslReg (w : Width) (d n m : Reg)
  /-- LSR Rd, Rn, #shift (R130). -/
  | lsrImm (w : Width) (d n : Reg) (shift : BitVec 6)
  /-- LSR Rd, Rn, Rm (R131). -/
  | lsrReg (w : Width) (d n m : Reg)
  /-- LDR Rt, [Xn, #pimm] (R141); `imm12` is pimm divided by the access size. -/
  | ldr (w : Width) (t n : Reg) (imm12 : BitVec 12)
  /-- STR Rt, [Xn, #pimm] (R142); `imm12` is pimm divided by the access size. -/
  | str (w : Width) (t n : Reg) (imm12 : BitVec 12)
  /-- STRB Wt, [Xn, #pimm] (R143); `imm12` is pimm. -/
  | strb (t n : Reg) (imm12 : BitVec 12)
  /-- STRH Wt, [Xn, #pimm] (R144); `imm12` is pimm / 2. -/
  | strh (t n : Reg) (imm12 : BitVec 12)
  /-- MOV Rd, Rm (R150). -/
  | movReg (w : Width) (d m : Reg)
  /-- MOV Wd, #imm16 (R151). -/
  | movImm (d : Reg) (imm16 : BitVec 16)
deriving DecidableEq, Repr

end Sys2Proof
end

