-- ==== Sys2Proof/WellFormed.lean ====
section
/-! DEFINITION. Which terms of `Instr` are instructions. Register numbers (R13, R71) and the widths of
immediates (R52, R74, R75) hold by their types; the one check left is the shift amount of LSL and LSR
(immediate): "between 0-31 for 32 bits or 0-63 for 64 bits" (R127, R128, R130). -/

namespace Sys2Proof

/-- `0 <= shift <= N-1` (R128, R130). -/
def shiftInRange (w : Width) (shift : BitVec 6) : Bool :=
  decide (shift.toNat < w.bits)

/-- The term is an instruction of R3. -/
def Instr.wf : Instr → Bool
  | .b _ => true
  | .bCond _ _ => true
  | .br _ => true
  | .bl _ => true
  | .blr _ => true
  | .cmpReg _ _ _ => true
  | .cmpImm _ _ _ => true
  | .addImm _ _ _ _ => true
  | .addsImm _ _ _ _ => true
  | .subImm _ _ _ _ => true
  | .subsImm _ _ _ _ => true
  | .addReg _ _ _ _ => true
  | .addsReg _ _ _ _ => true
  | .subReg _ _ _ _ => true
  | .subsReg _ _ _ _ => true
  | .adc _ _ _ _ => true
  | .adcs _ _ _ _ => true
  | .sbc _ _ _ _ => true
  | .sbcs _ _ _ _ => true
  | .mul _ _ _ _ => true
  | .madd _ _ _ _ _ => true
  | .udiv _ _ _ _ => true
  | .sdiv _ _ _ _ => true
  | .and _ _ _ _ => true
  | .ands _ _ _ _ => true
  | .orr _ _ _ _ => true
  | .orn _ _ _ _ => true
  | .eor _ _ _ _ => true
  | .eon _ _ _ _ => true
  | .lslImm w _ _ shift => shiftInRange w shift
  | .lslReg _ _ _ _ => true
  | .lsrImm w _ _ shift => shiftInRange w shift
  | .lsrReg _ _ _ _ => true
  | .ldr _ _ _ _ => true
  | .str _ _ _ _ => true
  | .strb _ _ _ => true
  | .strh _ _ _ => true
  | .movReg _ _ _ => true
  | .movImm _ _ => true

end Sys2Proof
end

