-- ==== Sys2Proof/Decode.lean ====
section
/-! DEFINITION. The decoder (30_encoding.md R50 to R72) and, after it, the encoder written from the
same patterns. Bit numbering is R6: bit 0 is the least significant bit of the word. -/

namespace Sys2Proof

/-! ### Bit fields and byte order -/

/-- `I[lo+len-1 : lo]` (R6). -/
def field (I : InstrWord) (lo len : Nat) : BitVec len :=
  I.extractLsb' lo len

/-- `I[i] = 1`. -/
def bit (I : InstrWord) (i : Nat) : Bool :=
  field I i 1 == 1#1

/-- The width bit at position `i`: bit 31 of the data-processing formats, bit 30 of LDR and STR (R9). -/
def widthAt (I : InstrWord) (i : Nat) : Width :=
  if bit I i then .x64 else .w32

/-- The number spelt by bytes, the first the least significant (R32, R33). -/
def littleEndian : List Byte → Nat
  | [] => 0
  | b :: rest => b.toNat + 256 * littleEndian rest

/-- The `k` bytes of a number, the least significant first (R32, R33). -/
def littleEndianBytes : (k : Nat) → Nat → List Byte
  | 0, _ => []
  | k + 1, v => BitVec.ofNat 8 v :: littleEndianBytes k (v / 256)

/-! ### Why a word is unallocated -/

/-- The causes of R161. All raise `UndefinedInstruction`; the names are for the reader. -/
inductive Unallocated where
  /-- The word matches no row of R72 (a fixed bit differs, R70, D26). -/
  | noFormat
  /-- A free register field holds 31 (R13, R71). -/
  | register31
  /-- B.cond with `cond = 1111` under `COND1111 = refuse` (R80). -/
  | condition1111
  /-- A logical `(p, q)` pair outside the table of R62. -/
  | logicalPair
  /-- A word of R68 or R69 under `ADMIT_SHIFT_ENCODINGS = false` (R67). -/
  | shiftNotAdmitted
  /-- A word of R69's pattern whose `(immr, imms)` is neither LSL's nor LSR's. -/
  | bitFieldMove
  /-- Fewer than four bytes stand where an instruction should (R50). -/
  | truncated
deriving DecidableEq, Repr

/-! ### The rows of R72

Each row is the pattern of its format rule, read slice by slice; that each equals R72's
mask-and-match test is the obligation DecoderRowsAreMaskAndMatch. -/

/-- B: `000101 imm26` (R53). -/
def rowB (I : InstrWord) : Bool := field I 26 6 == 0b000101#6
/-- BL: `100101 imm26` (R53). -/
def rowBl (I : InstrWord) : Bool := field I 26 6 == 0b100101#6
/-- B.cond: `01010100 imm19 0 cond` (R54). -/
def rowBCond (I : InstrWord) : Bool := field I 24 8 == 0b01010100#8 && field I 4 1 == 0#1
/-- BR: `1101011000011111000000 n 00000` (R55). -/
def rowBr (I : InstrWord) : Bool := field I 10 22 == 0b1101011000011111000000#22 && field I 0 5 == 0#5
/-- BLR: `1101011000111111000000 n 00000` (R55). -/
def rowBlr (I : InstrWord) : Bool := field I 10 22 == 0b1101011000111111000000#22 && field I 0 5 == 0#5
/-- CMP (register): `x1101011000 m 000000 n 11111` (R59). -/
def rowCmr (I : InstrWord) : Bool :=
  field I 21 10 == 0b1101011000#10 && field I 10 6 == 0#6 && field I 0 5 == 0b11111#5
/-- CMP (immediate): `x111000100 imm12 n 11111` (R60). -/
def rowCmi (I : InstrWord) : Bool := field I 22 9 == 0b111000100#9 && field I 0 5 == 0b11111#5
/-- Add/subtract (immediate): `xps1000100 imm12 n d` (R56). -/
def rowAsi (I : InstrWord) : Bool := field I 22 7 == 0b1000100#7
/-- Add/subtract (register): `xps01011000 m 000000 n d` (R57). -/
def rowAsr (I : InstrWord) : Bool := field I 21 8 == 0b01011000#8 && field I 10 6 == 0#6
/-- Add/subtract with carry: `xps11010000 m 000000 n d` (R58). -/
def rowAcr (I : InstrWord) : Bool := field I 21 8 == 0b11010000#8 && field I 10 6 == 0#6
/-- MUL: `x0011011000 m 011111 n d` (R61). -/
def rowMul (I : InstrWord) : Bool := field I 21 10 == 0b0011011000#10 && field I 10 6 == 0b011111#6
/-- MADD: `x0011011000 m 0 a n d` (R61). -/
def rowMadd (I : InstrWord) : Bool := field I 21 10 == 0b0011011000#10 && field I 15 1 == 0#1
/-- UDIV: `x0011010110 m 000010 n d` (R63). -/
def rowUdiv (I : InstrWord) : Bool := field I 21 10 == 0b0011010110#10 && field I 10 6 == 0b000010#6
/-- SDIV: `x0011010110 m 000011 n d` (R63). -/
def rowSdiv (I : InstrWord) : Bool := field I 21 10 == 0b0011010110#10 && field I 10 6 == 0b000011#6
/-- MOV (register): `x0101010000 m 000000 11111 d` (R65). -/
def rowMvr (I : InstrWord) : Bool := field I 21 10 == 0b0101010000#10 && field I 5 11 == 0b00000011111#11
/-- Logical: `xpp0101000q m 000000 n d` (R62). -/
def rowLog (I : InstrWord) : Bool := field I 22 7 == 0b0101000#7 && field I 10 6 == 0#6
/-- LDR: `1x11100101 imm12 n t` (R64). -/
def rowLdr (I : InstrWord) : Bool := field I 31 1 == 1#1 && field I 22 8 == 0b11100101#8
/-- STR: `1x11100100 imm12 n t` (R64). -/
def rowStr (I : InstrWord) : Bool := field I 31 1 == 1#1 && field I 22 8 == 0b11100100#8
/-- STRB: `0011100100 imm12 n t` (R64). -/
def rowStrb (I : InstrWord) : Bool := field I 22 10 == 0b0011100100#10
/-- STRH: `0111100100 imm12 n t` (R64). -/
def rowStrh (I : InstrWord) : Bool := field I 22 10 == 0b0111100100#10
/-- MOV (immediate): `01010010100 imm16 d` (R66). -/
def rowMvi (I : InstrWord) : Bool := field I 21 11 == 0b01010010100#11
/-- LSL (register): `x0011010110 m 001000 n d` (R68). -/
def rowLslr (I : InstrWord) : Bool := field I 21 10 == 0b0011010110#10 && field I 10 6 == 0b001000#6
/-- LSR (register): `x0011010110 m 001001 n d` (R68). -/
def rowLsrr (I : InstrWord) : Bool := field I 21 10 == 0b0011010110#10 && field I 10 6 == 0b001001#6
/-- LSL/LSR (immediate): `x10100110y immr imms n d` with `y = x` (R69). -/
def rowShi (I : InstrWord) : Bool := field I 23 8 == 0b10100110#8 && field I 22 1 == field I 31 1

/-! ### Operands of a row -/

/-- The register number in a free field, unless it is 31 (R71). -/
def reg? (I : InstrWord) (lo : Nat) : Option Reg :=
  if h : (field I lo 5).toNat < 31 then some ⟨(field I lo 5).toNat, h⟩ else none

/-- A row with one free register field. -/
def withReg (I : InstrWord) (lo : Nat) (k : Reg → Instr) : Except Unallocated Instr :=
  match reg? I lo with
  | some r => .ok (k r)
  | none => .error .register31

/-- A row with two free register fields. -/
def withRegs (I : InstrWord) (lo₁ lo₂ : Nat) (k : Reg → Reg → Instr) : Except Unallocated Instr :=
  match reg? I lo₁, reg? I lo₂ with
  | some r₁, some r₂ => .ok (k r₁ r₂)
  | _, _ => .error .register31

/-- A row with the free register fields `d`, `n` and `m` (R52). -/
def withDnm (I : InstrWord) (k : Reg → Reg → Reg → Instr) : Except Unallocated Instr :=
  match reg? I 0, reg? I 5, reg? I 16 with
  | some d, some n, some m => .ok (k d n m)
  | _, _, _ => .error .register31

/-- A row with the free register fields `d`, `n`, `m` and `a` (R52). -/
def withDnma (I : InstrWord) (k : Reg → Reg → Reg → Reg → Instr) : Except Unallocated Instr :=
  match reg? I 0, reg? I 5, reg? I 16, reg? I 10 with
  | some d, some n, some m, some a => .ok (k d n m a)
  | _, _, _, _ => .error .register31

/-- The condition of a `cond` field (the table of R80). -/
def condOf (c : Cond1111) (v : BitVec 4) : Option Cond :=
  match v.toNat with
  | 0 => some .eq
  | 1 => some .ne
  | 2 => some .cs
  | 3 => some .cc
  | 4 => some .mi
  | 5 => some .pl
  | 6 => some .vs
  | 7 => some .vc
  | 8 => some .hi
  | 9 => some .ls
  | 10 => some .ge
  | 11 => some .lt
  | 12 => some .gt
  | 13 => some .le
  | 14 => some .al
  | _ =>
    match c with
    | .refuse => none
    | .always => some .al

/-- The decode table of R56 for format ASI, by `p` and `s`. -/
def asiOf (p s : Bool) (w : Width) (imm12 : BitVec 12) (d n : Reg) : Instr :=
  match p, s with
  | false, false => .addImm w d n imm12
  | false, true => .addsImm w d n imm12
  | true, false => .subImm w d n imm12
  | true, true => .subsImm w d n imm12

/-- The decode table of R57 for format ASR, by `p` and `s`. -/
def asrOf (p s : Bool) (w : Width) (d n m : Reg) : Instr :=
  match p, s with
  | false, false => .addReg w d n m
  | false, true => .addsReg w d n m
  | true, false => .subReg w d n m
  | true, true => .subsReg w d n m

/-- The decode table of R58 for format ACR, by `p` and `s`. -/
def acrOf (p s : Bool) (w : Width) (d n m : Reg) : Instr :=
  match p, s with
  | false, false => .adc w d n m
  | false, true => .adcs w d n m
  | true, false => .sbc w d n m
  | true, true => .sbcs w d n m

/-- The decode table of R62 for format LOG, by the two bits of `p` and `q`; two pairs are not in it. -/
def logOf (p₁ p₀ q : Bool) (w : Width) : Option (Reg → Reg → Reg → Instr) :=
  match p₁, p₀, q with
  | false, false, false => some (.and w)
  | true, true, false => some (.ands w)
  | false, true, false => some (.orr w)
  | false, true, true => some (.orn w)
  | true, false, false => some (.eor w)
  | true, false, true => some (.eon w)
  | false, false, true => none
  | true, true, true => none

/-- LSL or LSR (immediate) from `immr` and `imms` (R69). -/
def shiftImmOf (w : Width) (immr imms : BitVec 6) : Option (Reg → Reg → Instr) :=
  if w.bits ≤ immr.toNat ∨ w.bits ≤ imms.toNat then none
  else if imms.toNat = w.bits - 1 then some fun d n => .lsrImm w d n immr
  else if immr.toNat = (imms.toNat + 1) % w.bits then
    some fun d n => .lslImm w d n (BitVec.ofNat 6 (w.bits - 1 - imms.toNat))
  else none

/-! ### The decoder -/

/-- Row 22 of R72: the optional encodings of LSL and LSR (R67 to R69). -/
def decodeShift (p : DecodeParams) (I : InstrWord) : Except Unallocated Instr :=
  if rowLslr I || rowLsrr I || rowShi I then
    if p.admitShiftEncodings then
      if rowLslr I then withDnm I (.lslReg (widthAt I 31))
      else if rowLsrr I then withDnm I (.lsrReg (widthAt I 31))
      else
        match shiftImmOf (widthAt I 31) (field I 16 6) (field I 10 6) with
        | some k => withRegs I 0 5 k
        | none => .error .bitFieldMove
    else .error .shiftNotAdmitted
  else .error .noFormat

/-- The decoding procedure of R72: the rows in its order, the first that matches, then the
unallocated clauses. -/
def decode (p : DecodeParams) (I : InstrWord) : Except Unallocated Instr :=
  if rowB I then .ok (.b (field I 0 26))
  else if rowBl I then .ok (.bl (field I 0 26))
  else if rowBCond I then
    match condOf p.cond1111 (field I 0 4) with
    | some c => .ok (.bCond c (field I 5 19))
    | none => .error .condition1111
  else if rowBr I then withReg I 5 .br
  else if rowBlr I then withReg I 5 .blr
  else if rowCmr I then withRegs I 5 16 (.cmpReg (widthAt I 31))
  else if rowCmi I then withReg I 5 fun n => .cmpImm (widthAt I 31) n (field I 10 12)
  else if rowAsi I then withRegs I 0 5 (asiOf (bit I 30) (bit I 29) (widthAt I 31) (field I 10 12))
  else if rowAsr I then withDnm I (asrOf (bit I 30) (bit I 29) (widthAt I 31))
  else if rowAcr I then withDnm I (acrOf (bit I 30) (bit I 29) (widthAt I 31))
  else if rowMul I then withDnm I (.mul (widthAt I 31))
  else if rowMadd I then withDnma I (.madd (widthAt I 31))
  else if rowUdiv I then withDnm I (.udiv (widthAt I 31))
  else if rowSdiv I then withDnm I (.sdiv (widthAt I 31))
  else if rowMvr I then withRegs I 0 16 (.movReg (widthAt I 31))
  else if rowLog I then
    match logOf (bit I 30) (bit I 29) (bit I 21) (widthAt I 31) with
    | some k => withDnm I k
    | none => .error .logicalPair
  else if rowLdr I then withRegs I 0 5 fun t n => .ldr (widthAt I 30) t n (field I 10 12)
  else if rowStr I then withRegs I 0 5 fun t n => .str (widthAt I 30) t n (field I 10 12)
  else if rowStrb I then withRegs I 0 5 fun t n => .strb t n (field I 10 12)
  else if rowStrh I then withRegs I 0 5 fun t n => .strh t n (field I 10 12)
  else if rowMvi I then withReg I 0 fun d => .movImm d (field I 5 16)
  else decodeShift p I

/-- The decoder on bytes as they stand in memory: four bytes, little-endian (R33), and the rest. -/
def decodeBytes (p : DecodeParams) : List Byte → Except Unallocated (Instr × List Byte)
  | b₀ :: b₁ :: b₂ :: b₃ :: rest =>
    match decode p (BitVec.ofNat 32 (littleEndian [b₀, b₁, b₂, b₃])) with
    | .ok i => .ok (i, rest)
    | .error e => .error e
  | _ => .error .truncated

/-- The decoder's parameters at their defaults (R5). -/
def DecodeParams.initial : DecodeParams :=
  { cond1111 := .refuse, admitShiftEncodings := false }

/-- The defaults with the optional encodings of LSL and LSR admitted (R67): all 39 instructions decode. -/
def DecodeParams.admitting : DecodeParams :=
  { DecodeParams.initial with admitShiftEncodings := true }

/-- The word of the host's two questions: `nbits` bits of `w`, the rest zero. -/
def tableWord (nbits w : Nat) : InstrWord :=
  BitVec.ofNat 32 (w % 2 ^ nbits)

/-- What the decoder reads from a table row's word, laid out in bytes as R33 stores it. The optional
encodings of R68 and R69 are admitted, or the table's optional rows could not be shown (log entry 6). -/
def decodeTableWord (nbits w : Nat) : Option Instr :=
  match decodeBytes .admitting (littleEndianBytes 4 (tableWord nbits w).toNat) with
  | .ok (i, _) => some i
  | .error _ => none

/-! ### The encoder

A word is its format's `match` value plus each field at its place; the places of one format do not
overlap, so the sum is the pattern of R53 to R69 read as a number. -/

/-- The width bit. -/
def Width.code : Width → Nat
  | .w32 => 0
  | .x64 => 1

/-- The `cond` field of a condition (R80). -/
def Cond.code : Cond → Nat
  | .eq => 0
  | .ne => 1
  | .cs => 2
  | .cc => 3
  | .mi => 4
  | .pl => 5
  | .vs => 6
  | .vc => 7
  | .hi => 8
  | .ls => 9
  | .ge => 10
  | .lt => 11
  | .gt => 12
  | .le => 13
  | .al => 14

/-- A register-register format with fields `d`, `n`, `m` and the width bit 31. -/
def encodeDnm (base : Nat) (w : Width) (d n m : Reg) : InstrWord :=
  BitVec.ofNat 32 (base + w.code * 2 ^ 31 + m.val * 2 ^ 16 + n.val * 2 ^ 5 + d.val)

/-- A format with fields `d`, `n`, `imm12` and the width bit 31. -/
def encodeImm12 (base : Nat) (w : Width) (d : Nat) (n : Reg) (imm12 : BitVec 12) : InstrWord :=
  BitVec.ofNat 32 (base + w.code * 2 ^ 31 + imm12.toNat * 2 ^ 10 + n.val * 2 ^ 5 + d)

/-- Format LSI, with its size bits in `base` (R64). -/
def encodeLsi (base : Nat) (t n : Reg) (imm12 : BitVec 12) : InstrWord :=
  BitVec.ofNat 32 (base + imm12.toNat * 2 ^ 10 + n.val * 2 ^ 5 + t.val)

/-- The immediate shift format of R69, with `y = x`. -/
def encodeShi (w : Width) (d n : Reg) (immr imms : Nat) : InstrWord :=
  BitVec.ofNat 32
    (0x53000000 + w.code * 2 ^ 31 + w.code * 2 ^ 22 + immr * 2 ^ 16 + imms * 2 ^ 10 + n.val * 2 ^ 5 + d.val)

/-- The word of an instruction. -/
def encode : Instr → InstrWord
  | .b imm26 => BitVec.ofNat 32 (0x14000000 + imm26.toNat)
  | .bl imm26 => BitVec.ofNat 32 (0x94000000 + imm26.toNat)
  | .bCond c imm19 => BitVec.ofNat 32 (0x54000000 + imm19.toNat * 2 ^ 5 + c.code)
  | .br n => BitVec.ofNat 32 (0xD61F0000 + n.val * 2 ^ 5)
  | .blr n => BitVec.ofNat 32 (0xD63F0000 + n.val * 2 ^ 5)
  | .cmpReg w n m => BitVec.ofNat 32 (0x6B00001F + w.code * 2 ^ 31 + m.val * 2 ^ 16 + n.val * 2 ^ 5)
  | .cmpImm w n imm12 => encodeImm12 0x71000000 w 31 n imm12
  | .addImm w d n imm12 => encodeImm12 0x11000000 w d.val n imm12
  | .addsImm w d n imm12 => encodeImm12 0x31000000 w d.val n imm12
  | .subImm w d n imm12 => encodeImm12 0x51000000 w d.val n imm12
  | .subsImm w d n imm12 => encodeImm12 0x71000000 w d.val n imm12
  | .addReg w d n m => encodeDnm 0x0B000000 w d n m
  | .addsReg w d n m => encodeDnm 0x2B000000 w d n m
  | .subReg w d n m => encodeDnm 0x4B000000 w d n m
  | .subsReg w d n m => encodeDnm 0x6B000000 w d n m
  | .adc w d n m => encodeDnm 0x1A000000 w d n m
  | .adcs w d n m => encodeDnm 0x3A000000 w d n m
  | .sbc w d n m => encodeDnm 0x5A000000 w d n m
  | .sbcs w d n m => encodeDnm 0x7A000000 w d n m
  | .mul w d n m => encodeDnm 0x1B007C00 w d n m
  | .madd w d n m a => encodeDnm (0x1B000000 + a.val * 2 ^ 10) w d n m
  | .udiv w d n m => encodeDnm 0x1AC00800 w d n m
  | .sdiv w d n m => encodeDnm 0x1AC00C00 w d n m
  | .and w d n m => encodeDnm 0x0A000000 w d n m
  | .ands w d n m => encodeDnm 0x6A000000 w d n m
  | .orr w d n m => encodeDnm 0x2A000000 w d n m
  | .orn w d n m => encodeDnm 0x2A200000 w d n m
  | .eor w d n m => encodeDnm 0x4A000000 w d n m
  | .eon w d n m => encodeDnm 0x4A200000 w d n m
  | .lslImm w d n shift => encodeShi w d n ((w.bits - shift.toNat) % w.bits) (w.bits - 1 - shift.toNat)
  | .lslReg w d n m => encodeDnm 0x1AC02000 w d n m
  | .lsrImm w d n shift => encodeShi w d n shift.toNat (w.bits - 1)
  | .lsrReg w d n m => encodeDnm 0x1AC02400 w d n m
  | .ldr w t n imm12 => encodeLsi (0xB9400000 + w.code * 2 ^ 30) t n imm12
  | .str w t n imm12 => encodeLsi (0xB9000000 + w.code * 2 ^ 30) t n imm12
  | .strb t n imm12 => encodeLsi 0x39000000 t n imm12
  | .strh t n imm12 => encodeLsi 0x79000000 t n imm12
  | .movReg w d m => BitVec.ofNat 32 (0x2A0003E0 + w.code * 2 ^ 31 + m.val * 2 ^ 16 + d.val)
  | .movImm d imm16 => BitVec.ofNat 32 (0x52800000 + imm16.toNat * 2 ^ 5 + d.val)

/-- Whether the instruction's words are those R68 and R69 make optional. -/
def Instr.isShift : Instr → Bool
  | .lslImm _ _ _ _ | .lslReg _ _ _ _ | .lsrImm _ _ _ _ | .lsrReg _ _ _ _ => true
  | _ => false

/-- The instruction a word of `i` decodes to: `i` itself, but that `LSL #0` and `LSR #0` share one
word (R69), which decodes to `LSR #0`. -/
def Instr.canonical : Instr → Instr
  | .lslImm w d n shift => if shift = 0#6 then .lsrImm w d n 0#6 else .lslImm w d n shift
  | i => i

end Sys2Proof
end

