-- ==== Sys2Proof/Machine/Launch.lean ====
section
/-! DEFINITION. The launch: the parameters of 00_scope.md R5 that a model takes as an argument, and the
predicates the spec builds from them (10_state.md R24; 20_memory.md R31; 70_reset_and_hazards.md R180,
R183, R184). No instruction changes them. -/

namespace Sys2Proof.Machine

/-- A run of `size` byte addresses from `base`, modulo 2^64. -/
structure Region where
  base : Addr
  size : Nat
deriving DecidableEq, Repr

def Region.contains (r : Region) (a : Addr) : Bool :=
  decide ((a - r.base).toNat < r.size)

/-- The launch parameters (R5). `ENTRY` is the value of `pc` at launch; `REG31` is fixed at `refuse`,
the one setting with rules (D2). -/
structure Launch where
  /-- `MAPPED`: the regions of data memory. -/
  mapped : List Region
  /-- `CODE_BASE`: where the program text stands. -/
  codeBase : Addr
  /-- `CODE`: the words of the program text. -/
  code : List InstrWord
  /-- `EXIT_SET`: addresses at which a run ends normally, beside the end of the text. -/
  exitSet : List Addr
  /-- `COND1111` and `ADMIT_SHIFT_ENCODINGS`. -/
  decoding : DecodeParams
  /-- `STRICT_ALIGN`. -/
  strictAlign : Bool
  /-- `BIG_ENDIAN`. -/
  bigEndian : Bool
  /-- `SHIFT_REG_AMOUNT`. -/
  shiftRegAmount : ShiftRegAmount
  /-- `DIV_ZERO`. -/
  divZero : DivZero
  /-- `DIV_OVERFLOW`. -/
  divOverflow : DivOverflow
deriving DecidableEq, Repr

namespace Launch

/-- `a` lies in `[CODE_BASE, CODE_BASE + 4*len(CODE))` (R31). -/
def inCode (l : Launch) (a : Addr) : Bool :=
  decide ((a - l.codeBase).toNat < 4 * l.code.length)

/-- `MAPPED(a)`: data memory. R31 requires it disjoint from the code region; here it is so by
construction (R34, R35, R44; log entry 4). -/
def dataMapped (l : Launch) (a : Addr) : Bool :=
  l.mapped.any (·.contains a) && !l.inCode a

/-- The end of the program text, `CODE_BASE + 4*len(CODE)`. -/
def codeEnd (l : Launch) : Addr :=
  l.codeBase + BitVec.ofNat 64 (4 * l.code.length)

/-- `EXIT(a)` (R183): the end of the text or a member of `EXIT_SET`, which R183 requires disjoint from
the code region; here it is so by construction (log entry 4). -/
def isExit (l : Launch) (a : Addr) : Bool :=
  a == l.codeEnd || (l.exitSet.contains a && !l.inCode a)

/-- `CODE[(a - CODE_BASE) / 4]`, when `a` lies in the code region (R184). -/
def codeWord? (l : Launch) (a : Addr) : Option InstrWord :=
  if l.inCode a then l.code[(a - l.codeBase).toNat / 4]? else none

/-- The byte of the program text at an address of the code region, in the order of R33. -/
def codeByte? (l : Launch) (a : Addr) : Option Byte :=
  (l.codeWord? a).map fun I => I.extractLsb' (8 * ((a - l.codeBase).toNat % 4)) 8

/-- The text of the launch is well formed: `CODE_BASE` is a multiple of 4 and the text does not overlap itself
modulo 2^64. DESIGN CHOICE, both: the spec asks the multiple of 4 of `ENTRY` and `pc` alone (R17, R180), and of
`CODE_BASE` only where it is `ENTRY`, the default of R5; it sets no bound on the length (log entry 20). Only
claims have it as a premise; no step reads it. -/
def wf (l : Launch) : Bool :=
  decide (l.codeBase.toNat % 4 = 0) && decide (4 * l.code.length < 2 ^ 64)

/-- `entry` may be `ENTRY`, the `pc` of the launch: a multiple of 4 inside the code region (R180). An empty
text admits none. -/
def admitsEntry (l : Launch) (entry : Addr) : Bool :=
  decide (entry.toNat % 4 = 0) && l.inCode entry

/-- Place `I` at `a`: in the text when `a` is one of its words or its end, else as a new text. -/
def placeWord (l : Launch) (a : Addr) (I : InstrWord) : Launch :=
  let offset := (a - l.codeBase).toNat
  if offset % 4 = 0 ∧ offset / 4 < l.code.length then { l with code := l.code.set (offset / 4) I }
  else if offset = 4 * l.code.length then { l with code := l.code ++ [I] }
  else { l with codeBase := a, code := [I] }

/-- Admit the optional encodings of LSL and LSR where `I` needs them to decode (R67; log entry 6). -/
def admitFor (l : Launch) (I : InstrWord) : Launch :=
  let admitted := { l.decoding with admitShiftEncodings := true }
  match decode l.decoding I, decode admitted I with
  | .error _, .ok _ => { l with decoding := admitted }
  | _, _ => l

/-- The launch of the reset state: the parameters at their defaults (R5); of the four given per launch,
the shortest text in which an entry can stand, one word of zeros at 0x1000, no exit address, and the whole
address space as data memory (log entries 2, 3). -/
def initial : Launch where
  mapped := [{ base := 0#64, size := 2 ^ 64 }]
  codeBase := 0x1000#64
  code := [0x00000000#32]
  exitSet := []
  decoding := .initial
  strictAlign := true
  bigEndian := false
  shiftRegAmount := .modulo
  divZero := .zero
  divOverflow := .wrap

end Launch

end Sys2Proof.Machine
end

