-- ==== Sys2Proof/Machine/State.lean ====
section
/-! DEFINITION. The architectural state (10_state.md): 31 general registers, the program counter, four
flags, memory, and the launch parameters the spec has a model take as an argument. Nothing else is
named by the spec (R21, R22, R171). -/

namespace Sys2Proof.Machine

/-- The four condition flags (R18): free-standing bits, not a field of a status word (R21). -/
structure Flags where
  n : Bool
  z : Bool
  c : Bool
  v : Bool
deriving DecidableEq, Repr

/-- Data memory (R23, R31): the bytes that differ from what an unlisted address reads as, addresses
strictly rising. The form is `Memory.wf`; reads and writes stand in Machine/Ops.lean. -/
abbrev Memory := List Host.Cell

/-- The state of the machine. -/
structure State where
  /-- `X[0]` to `X[30]` (R10). -/
  regs : Vector (BitVec 64) 31
  /-- `pc` (R15). -/
  pc : BitVec 64
  /-- `N`, `Z`, `C`, `V` (R18). -/
  flags : Flags
  /-- Data memory (R23, R31). -/
  mem : Memory
  /-- The launch parameters (R5). -/
  launch : Launch
deriving DecidableEq, Repr

/-- The faults of R160 to R164. Each ends the run: no register, flag, `pc` or memory byte has changed.
All are safe: the model stops where hardware would go on or take an exception the spec does not have. -/
inductive Fault where
  /-- The fetched word is unallocated (R161). Raised by decode; records the word and `pc`. Safe. -/
  | undefinedInstruction (word : InstrWord) (pc : Addr)
  /-- `pc` is aligned but neither in the code region nor an `EXIT` address (R162). Raised by fetch. Safe. -/
  | fetchAbort (pc : Addr)
  /-- `pc mod 4 != 0` (R163). Raised by fetch. Safe. -/
  | pcAlignmentFault (pc : Addr)
  /-- A data access at an address not a multiple of its size under `STRICT_ALIGN` (R164). Raised by
  LDR, STR and STRH. Safe. -/
  | alignmentFault (address : Addr)
  /-- A data access touching an unmapped byte or the code region (R164). Raised by LDR, STR, STRB and
  STRH. Safe. -/
  | dataAbort (address : Addr)
deriving DecidableEq, Repr

/-- The refusals. The spec gives every instruction its effect, so no meaning refuses. -/
inductive Refusal where
  /-- The instruction has no meaning in this model yet. Raised by `exec`'s arm alone; none is left. Safe. -/
  | notModelled (mnemonic : String)
deriving DecidableEq, Repr

/-- The machine after reset: the launch of R24 and R180 at the values the log names (log entries 1, 2, 3).
`pc` is `ENTRY = CODE_BASE`, inside the code region. -/
def State.reset : State where
  regs := Vector.replicate 31 0#64
  pc := Launch.initial.codeBase
  flags := { n := false, z := false, c := false, v := false }
  mem := []
  launch := Launch.initial

end Sys2Proof.Machine
end

