-- ==== Sys2Proof/Machine/Ops.lean ====
section
/-! DEFINITION. The named operations over registers, `pc`, flags and memory, and raising a fault.
Every meaning reads and writes the state through these. -/

namespace Sys2Proof.Machine

/-- The outcome of a step. -/
abbrev Out := Host.Outcome State Fault Refusal

/-! ### Registers, pc, flags -/

/-- `X[r]` (R10). -/
def State.x (s : State) (r : Reg) : Word64 :=
  s.regs[r]

/-- `X[r] <- v` (R7). -/
def State.setX (s : State) (r : Reg) (v : Word64) : State :=
  { s with regs := s.regs.set r v }

/-- `R[r]`: `X[r]`, or `W[r]`, its low 32 bits (R7, R11). -/
def State.readReg (s : State) (w : Width) (r : Reg) : BitVec w.bits :=
  (s.x r).setWidth w.bits

/-- `R[r] <- v`: a `W` write clears bits 63:32 (R7, R12). -/
def State.writeReg (s : State) (w : Width) (r : Reg) (v : BitVec w.bits) : State :=
  s.setX r (v.setWidth 64)

/-- `pc <- t` (R7). -/
def State.setPc (s : State) (t : Addr) : State :=
  { s with pc := t }

/-- `pc <- pc + 4`, modulo 2^64 (R8, R16). -/
def State.advance (s : State) : State :=
  s.setPc (s.pc + 4#64)

/-- `NZCV <- f` (R7, R19). -/
def State.setFlags (s : State) (f : Flags) : State :=
  { s with flags := f }

/-- Replace data memory. -/
def State.setMem (s : State) (m : Memory) : State :=
  { s with mem := m }

/-! ### Taking an exception

60_exceptions.md R160 and R168: there is no trap entry, no saved register, no vector and no return.
Raising a fault ends the run; the state stays the one before the instruction. -/

/-- `raise f` (R7, R160). -/
def raise (f : Fault) : Out :=
  .fault f

/-! ### One byte of memory -/

/-- What a mapped byte that nothing has written reads as: a free input of the launch in the spec (R24),
zero in the reset state (log entry 3). -/
def Memory.unlisted : Byte := 0#8

/-- The canonical form: addresses strictly rising and below 2^64, no entry equal to what an unlisted
address reads as. -/
abbrev Memory.wf (m : Memory) : Prop :=
  m.Pairwise (fun p q => p.1 < q.1) ∧ ∀ c ∈ m, c.1 < 2 ^ 64 ∧ c.2 ≠ Memory.unlisted

/-- The byte at `a`. -/
def Memory.read : Memory → Nat → Byte
  | [], _ => Memory.unlisted
  | (k, b) :: rest, a => if k = a then b else Memory.read rest a

/-- Put `b` before `rest`, unless it is what an unlisted address reads as. -/
def Memory.consByte (a : Nat) (b : Byte) (rest : Memory) : Memory :=
  if b = Memory.unlisted then rest else (a, b) :: rest

/-- Write `b` at `a`, keeping the canonical form. -/
def Memory.write : Memory → Nat → Byte → Memory
  | [], a, b => Memory.consByte a b []
  | (k, c) :: rest, a, b =>
    if a < k then Memory.consByte a b ((k, c) :: rest)
    else if a = k then Memory.consByte a b rest
    else (k, c) :: Memory.write rest a b

/-- The byte the spec's partial map `mem` holds at `a` (R31): program text in the code region (R33),
data where `MAPPED`, nothing elsewhere. -/
def State.byteAt (s : State) (a : Addr) : Option Byte :=
  if s.launch.inCode a then s.launch.codeByte? a
  else if s.launch.dataMapped a then some (s.mem.read a.toNat)
  else none

/-! ### Accesses of several bytes -/

/-- The address of byte `k` of an access: `(addr + k) mod 2^64` (R34, R35). -/
def byteAddr (addr : Addr) (k : Nat) : Addr :=
  addr + BitVec.ofNat 64 k

/-- The first fault an access of `n` bytes at `addr` meets: alignment, then mapping (R34, R35, R140, R167). -/
def accessFault? (s : State) (addr : Addr) (n : Nat) : Option Fault :=
  if s.launch.strictAlign && addr.toNat % n != 0 then some (.alignmentFault addr)
  else if (List.range n).all fun k => s.launch.dataMapped (byteAddr addr k) then none
  else some (.dataAbort addr)

/-- Bytes in the order of rising addresses, turned into the order of rising significance: as they are
when little-endian (R32), reversed under `BIG_ENDIAN` (log entry 7). -/
def dataOrder (bigEndian : Bool) (bytes : List Byte) : List Byte :=
  if bigEndian then bytes.reverse else bytes

/-- The `n` bytes from `addr` up. -/
def Memory.readBytes (m : Memory) (addr : Addr) : Nat → List Byte
  | 0 => []
  | n + 1 => m.read addr.toNat :: Memory.readBytes m (addr + 1#64) n

/-- Write bytes from `addr` up. -/
def Memory.writeBytes (m : Memory) (addr : Addr) : List Byte → Memory
  | [] => m
  | b :: rest => Memory.writeBytes (m.write addr.toNat b) (addr + 1#64) rest

/-- `MemRead(addr, n)` (R34). -/
def memRead (s : State) (addr : Addr) (n : Nat) : Except Fault (BitVec (8 * n)) :=
  match accessFault? s addr n with
  | some f => .error f
  | none => .ok (BitVec.ofNat (8 * n) (littleEndian (dataOrder s.launch.bigEndian (s.mem.readBytes addr n))))

/-- `MemWrite(addr, n, v)` (R35). All checks precede any write. -/
def memWrite (s : State) (addr : Addr) (n : Nat) (v : BitVec (8 * n)) : Except Fault State :=
  match accessFault? s addr n with
  | some f => .error f
  | none =>
    .ok (s.setMem (s.mem.writeBytes addr (dataOrder s.launch.bigEndian (littleEndianBytes n v.toNat))))

/-! ### How an instruction ends -/

/-- `R[d] <- v`, the flags unchanged, `pc <- pc + 4` (R8). -/
def finishReg (w : Width) (d : Reg) (v : BitVec w.bits) (s : State) : Out :=
  .next (s.writeReg w d v).advance

/-- `R[d] <- v`, `NZCV <- f`, `pc <- pc + 4` (R8, R96). -/
def finishRegFlags (w : Width) (d : Reg) (r : BitVec w.bits × Flags) (s : State) : Out :=
  .next ((s.writeReg w d r.1).setFlags r.2).advance

/-- `NZCV <- f`, no register written, `pc <- pc + 4` (R8, R90, R91). -/
def finishFlags (f : Flags) (s : State) : Out :=
  .next (s.setFlags f).advance

/-- A load's end: raise the access's fault, or write the register and advance (R8, R141). -/
def finishLoad (w : Width) (t : Reg) (r : Except Fault (BitVec (8 * w.bytes))) (s : State) : Out :=
  match r with
  | .error f => raise f
  | .ok data => finishReg w t (data.setWidth w.bits) s

/-- A store's end: raise the access's fault, or advance (R8, R142 to R144). -/
def finishStore (r : Except Fault State) : Out :=
  match r with
  | .error f => raise f
  | .ok s' => .next s'.advance

end Sys2Proof.Machine
end

