-- ==== Sys2Proof/Machine/Flags.lean ====
section
/-! DEFINITION. The flag computations: the shared adder (42_add_sub.md R95), the flags of ANDS
(44_logical_shift.md R120) and the conditions that read them (40_branches.md R80). -/

namespace Sys2Proof.Machine

/-- `AddWithCarry_N(x, y, cin)`: the result and the four flags, computed exactly and narrowed (R95). -/
def addWithCarry {N : Nat} (x y : BitVec N) (cin : Bool) : BitVec N × Flags :=
  let usum : Nat := x.toNat + y.toNat + cin.toNat
  let ssum : Int := x.toInt + y.toInt + cin.toNat
  let result := BitVec.ofNat N usum
  (result,
    { n := result.msb
      z := result == 0#N
      c := decide (2 ^ N ≤ usum)
      v := result.toInt != ssum })

/-- `a + b` (R95). -/
def addFlags {N : Nat} (a b : BitVec N) : BitVec N × Flags :=
  addWithCarry a b false

/-- `a - b`, as `a + NOT b + 1` (R95). -/
def subFlags {N : Nat} (a b : BitVec N) : BitVec N × Flags :=
  addWithCarry a (~~~b) true

/-- The flags of ANDS: N and Z from the result, C and V cleared (R120). -/
def logicFlags {N : Nat} (result : BitVec N) : Flags :=
  { n := result.msb, z := result == 0#N, c := false, v := false }

/-- `ConditionHolds(cond)` (R80). -/
def conditionHolds (c : Cond) (f : Flags) : Bool :=
  match c with
  | .eq => f.z
  | .ne => !f.z
  | .cs => f.c
  | .cc => !f.c
  | .mi => f.n
  | .pl => !f.n
  | .vs => f.v
  | .vc => !f.v
  | .hi => f.c && !f.z
  | .ls => !f.c || f.z
  | .ge => f.n == f.v
  | .lt => f.n != f.v
  | .gt => !f.z && f.n == f.v
  | .le => f.z || f.n != f.v
  | .al => true

end Sys2Proof.Machine
end

