-- ==== Sys2Proof/Machine/Operands.lean ====
section
/-! DEFINITION. Operand assembly: branch targets (R73), data-processing immediates (R74), load/store
addresses (R75, R140) and shift amounts (R127 to R131). -/

namespace Sys2Proof.Machine

/-- `sext_64(imm : 00)`: the byte offset of a PC-relative branch (R73). -/
def branchOffset {k : Nat} (imm : BitVec k) : Addr :=
  (imm ++ 0b00#2).signExtend 64

/-- `pc + offset`, modulo 2^64, with `pc` the branch's own address (R16, R73). -/
def branchTarget {k : Nat} (s : State) (imm : BitVec k) : Addr :=
  s.pc + branchOffset imm

/-- `zext_N(imm12)` (R74). -/
def immOperand (w : Width) (imm12 : BitVec 12) : BitVec w.bits :=
  imm12.setWidth w.bits

/-- `(X[n] + zext_64(imm12) * sz) mod 2^64` (R75, R140). The base is the whole of `X[n]`. -/
def accessAddress (s : State) (n : Reg) (imm12 : BitVec 12) (sz : Nat) : Addr :=
  s.x n + BitVec.ofNat 64 (imm12.toNat * sz)

/-- `v << amount` with the amount in a register (R127, R129). -/
def shiftLeftReg {N : Nat} (mode : ShiftRegAmount) (v amount : BitVec N) : BitVec N :=
  match mode with
  | .modulo => v <<< (amount.toNat % N)
  | .saturate => if amount.toNat < N then v <<< amount.toNat else 0#N

/-- `v >> amount`, zeros shifted in, with the amount in a register (R127, R131). -/
def shiftRightReg {N : Nat} (mode : ShiftRegAmount) (v amount : BitVec N) : BitVec N :=
  match mode with
  | .modulo => v >>> (amount.toNat % N)
  | .saturate => if amount.toNat < N then v >>> amount.toNat else 0#N

end Sys2Proof.Machine
end

