-- ==== Sys2Proof/Machine/AddSub.lean ====
section
/-! DEFINITION. Add and subtract: immediate, register, with carry (42_add_sub.md R95 to R108). The
forms with `s = 1` write the flags the adder returns, the others keep all four (R96). -/

namespace Sys2Proof.Machine

/-- ADD (immediate) (R97). -/
def execAddImm (w : Width) (d n : Reg) (imm12 : BitVec 12) (s : State) : Out :=
  finishReg w d (addFlags (s.readReg w n) (immOperand w imm12)).1 s

/-- ADDS (immediate) (R98). -/
def execAddsImm (w : Width) (d n : Reg) (imm12 : BitVec 12) (s : State) : Out :=
  finishRegFlags w d (addFlags (s.readReg w n) (immOperand w imm12)) s

/-- SUB (immediate) (R99). -/
def execSubImm (w : Width) (d n : Reg) (imm12 : BitVec 12) (s : State) : Out :=
  finishReg w d (subFlags (s.readReg w n) (immOperand w imm12)).1 s

/-- SUBS (immediate) (R100). -/
def execSubsImm (w : Width) (d n : Reg) (imm12 : BitVec 12) (s : State) : Out :=
  finishRegFlags w d (subFlags (s.readReg w n) (immOperand w imm12)) s

/-- ADD (register) (R101). -/
def execAddReg (w : Width) (d n m : Reg) (s : State) : Out :=
  finishReg w d (addFlags (s.readReg w n) (s.readReg w m)).1 s

/-- ADDS (register) (R102). -/
def execAddsReg (w : Width) (d n m : Reg) (s : State) : Out :=
  finishRegFlags w d (addFlags (s.readReg w n) (s.readReg w m)) s

/-- SUB (register) (R103). -/
def execSubReg (w : Width) (d n m : Reg) (s : State) : Out :=
  finishReg w d (subFlags (s.readReg w n) (s.readReg w m)).1 s

/-- SUBS (register) (R104). -/
def execSubsReg (w : Width) (d n m : Reg) (s : State) : Out :=
  finishRegFlags w d (subFlags (s.readReg w n) (s.readReg w m)) s

/-- ADC: `R[n] + R[m] + C` (R105). -/
def execAdc (w : Width) (d n m : Reg) (s : State) : Out :=
  finishReg w d (addWithCarry (s.readReg w n) (s.readReg w m) s.flags.c).1 s

/-- ADCS (R106). -/
def execAdcs (w : Width) (d n m : Reg) (s : State) : Out :=
  finishRegFlags w d (addWithCarry (s.readReg w n) (s.readReg w m) s.flags.c) s

/-- SBC: `R[n] + NOT R[m] + C` (R107). -/
def execSbc (w : Width) (d n m : Reg) (s : State) : Out :=
  finishReg w d (addWithCarry (s.readReg w n) (~~~(s.readReg w m)) s.flags.c).1 s

/-- SBCS (R108). -/
def execSbcs (w : Width) (d n m : Reg) (s : State) : Out :=
  finishRegFlags w d (addWithCarry (s.readReg w n) (~~~(s.readReg w m)) s.flags.c) s

end Sys2Proof.Machine
end

