-- ==== Sys2Proof/Machine/Branch.lean ====
section
/-! DEFINITION. B, B.cond, BR, BL, BLR (40_branches.md R81 to R85). The hints of the source have no
effect (R86) and there is no delay slot (R186). -/

namespace Sys2Proof.Machine

/-- B (R81). -/
def execB (imm26 : BitVec 26) (s : State) : Out :=
  .next (s.setPc (branchTarget s imm26))

/-- B.cond (R82). -/
def execBCond (c : Cond) (imm19 : BitVec 19) (s : State) : Out :=
  if conditionHolds c s.flags then .next (s.setPc (branchTarget s imm19)) else .next s.advance

/-- BR (R83). -/
def execBr (n : Reg) (s : State) : Out :=
  .next (s.setPc (s.x n))

/-- BL (R84). -/
def execBl (imm26 : BitVec 26) (s : State) : Out :=
  .next ((s.setX Reg.lr (s.pc + 4#64)).setPc (branchTarget s imm26))

/-- BLR (R85): the target is read before the link register is written. -/
def execBlr (n : Reg) (s : State) : Out :=
  .next ((s.setX Reg.lr (s.pc + 4#64)).setPc (s.x n))

end Sys2Proof.Machine
end

