-- ==== Sys2Proof/Machine/Compare.lean ====
section
/-! DEFINITION. CMP (register) and CMP (immediate) (41_compare.md R90, R91). -/

namespace Sys2Proof.Machine

/-- CMP (register): the flags of `R[n] - R[m]` (R90; 90_conflicts.md C1). -/
def execCmpReg (w : Width) (n m : Reg) (s : State) : Out :=
  finishFlags (subFlags (s.readReg w n) (s.readReg w m)).2 s

/-- CMP (immediate): the flags of `R[n] - imm12` (R91). -/
def execCmpImm (w : Width) (n : Reg) (imm12 : BitVec 12) (s : State) : Out :=
  finishFlags (subFlags (s.readReg w n) (immOperand w imm12)).2 s

end Sys2Proof.Machine
end

