-- ==== Sys2Proof/Machine/LoadStore.lean ====
section
/-! DEFINITION. LDR, STR, STRB, STRH (45_load_store.md R140 to R144): one addressing mode, no write-back,
no flag read or written. -/

namespace Sys2Proof.Machine

/-- LDR (R141): the address uses the old `X[n]`; a `W` load clears bits 63:32. -/
def execLdr (w : Width) (t n : Reg) (imm12 : BitVec 12) (s : State) : Out :=
  finishLoad w t (memRead s (accessAddress s n imm12 w.bytes) w.bytes) s

/-- STR (R142). -/
def execStr (w : Width) (t n : Reg) (imm12 : BitVec 12) (s : State) : Out :=
  finishStore
    (memWrite s (accessAddress s n imm12 w.bytes) w.bytes ((s.x t).setWidth (8 * w.bytes)))

/-- STRB: `W[t][7:0]` (R143). -/
def execStrb (t n : Reg) (imm12 : BitVec 12) (s : State) : Out :=
  finishStore (memWrite s (accessAddress s n imm12 1) 1 ((s.x t).setWidth 8))

/-- STRH: `W[t][15:0]` (R144). -/
def execStrh (t n : Reg) (imm12 : BitVec 12) (s : State) : Out :=
  finishStore (memWrite s (accessAddress s n imm12 2) 2 ((s.x t).setWidth 16))

end Sys2Proof.Machine
end

