-- ==== Sys2Proof/Machine/Logical.lean ====
section
/-! DEFINITION. AND, ANDS, ORR, ORN, EOR, EON (44_logical_shift.md R120 to R126). -/

namespace Sys2Proof.Machine

/-- AND (R121). -/
def execAnd (w : Width) (d n m : Reg) (s : State) : Out :=
  finishReg w d (s.readReg w n &&& s.readReg w m) s

/-- ANDS (R120, R122). -/
def execAnds (w : Width) (d n m : Reg) (s : State) : Out :=
  let result := s.readReg w n &&& s.readReg w m
  finishRegFlags w d (result, logicFlags result) s

/-- ORR (R123). -/
def execOrr (w : Width) (d n m : Reg) (s : State) : Out :=
  finishReg w d (s.readReg w n ||| s.readReg w m) s

/-- ORN (R124): the complement is taken within `N` bits. -/
def execOrn (w : Width) (d n m : Reg) (s : State) : Out :=
  finishReg w d (s.readReg w n ||| ~~~(s.readReg w m)) s

/-- EOR (R125). -/
def execEor (w : Width) (d n m : Reg) (s : State) : Out :=
  finishReg w d (s.readReg w n ^^^ s.readReg w m) s

/-- EON (R126). -/
def execEon (w : Width) (d n m : Reg) (s : State) : Out :=
  finishReg w d (s.readReg w n ^^^ ~~~(s.readReg w m)) s

end Sys2Proof.Machine
end

