-- ==== Sys2Proof/Machine/Move.lean ====
section
/-! DEFINITION. MOV (register) and MOV (immediate) (46_move.md R150, R151). -/

namespace Sys2Proof.Machine

/-- MOV (register): the 32-bit form clears bits 63:32 of the destination (R150). -/
def execMovReg (w : Width) (d m : Reg) (s : State) : Out :=
  finishReg w d (s.readReg w m) s

/-- MOV (immediate): `W[d] <- zext_32(imm16)` (R151). -/
def execMovImm (d : Reg) (imm16 : BitVec 16) (s : State) : Out :=
  finishReg .w32 d (imm16.setWidth 32) s

end Sys2Proof.Machine
end

