-- ==== Sys2Proof/Machine/MulDiv.lean ====
section
/-! DEFINITION. MUL, MADD, UDIV, SDIV (43_multiply_divide.md R110 to R114). None reads or writes a flag
and none faults. -/

namespace Sys2Proof.Machine

/-- The result of a division by zero under `DIV_ZERO` (R110). -/
def divByZero (mode : DivZero) (signed : Bool) {N : Nat} (dividend : BitVec N) : BitVec N :=
  match mode with
  | .zero => 0#N
  | .uninterpreted => Config.divZeroValue signed N dividend

/-- The unsigned quotient (R113). -/
def unsignedQuotient (mode : DivZero) {N : Nat} (a b : BitVec N) : BitVec N :=
  if b.toNat = 0 then divByZero mode false a
  else BitVec.ofNat N (a.toNat / b.toNat)

/-- The signed quotient, rounded toward zero (R110, R114). The overflow case `-2^(N-1) / -1` wraps, or
is free under `DIV_OVERFLOW`. -/
def signedQuotient (onZero : DivZero) (onOverflow : DivOverflow) {N : Nat} (x y : BitVec N) : BitVec N :=
  let a := x.toInt
  let b := y.toInt
  if b = 0 then divByZero onZero true x
  else if a = -2 ^ (N - 1) ∧ b = -1 ∧ onOverflow = .uninterpreted then Config.divOverflowValue N
  else BitVec.ofInt N (a.sign * b.sign * ((a.natAbs / b.natAbs : Nat) : Int))

/-- MUL (R111). -/
def execMul (w : Width) (d n m : Reg) (s : State) : Out :=
  finishReg w d (BitVec.ofNat w.bits ((s.readReg w n).toNat * (s.readReg w m).toNat)) s

/-- MADD (R112). -/
def execMadd (w : Width) (d n m a : Reg) (s : State) : Out :=
  finishReg w d
    (BitVec.ofNat w.bits ((s.readReg w a).toNat + (s.readReg w n).toNat * (s.readReg w m).toNat)) s

/-- UDIV (R113). -/
def execUdiv (w : Width) (d n m : Reg) (s : State) : Out :=
  finishReg w d (unsignedQuotient s.launch.divZero (s.readReg w n) (s.readReg w m)) s

/-- SDIV (R114). -/
def execSdiv (w : Width) (d n m : Reg) (s : State) : Out :=
  finishReg w d
    (signedQuotient s.launch.divZero s.launch.divOverflow (s.readReg w n) (s.readReg w m)) s

end Sys2Proof.Machine
end

