-- ==== Sys2Proof/Machine/Shift.lean ====
section
/-! DEFINITION. LSL and LSR, immediate and register (44_logical_shift.md R127 to R131). -/

namespace Sys2Proof.Machine

/-- LSL (immediate) (R128). -/
def execLslImm (w : Width) (d n : Reg) (shift : BitVec 6) (s : State) : Out :=
  finishReg w d (s.readReg w n <<< shift.toNat) s

/-- LSL (register) (R127, R129). -/
def execLslReg (w : Width) (d n m : Reg) (s : State) : Out :=
  finishReg w d (shiftLeftReg s.launch.shiftRegAmount (s.readReg w n) (s.readReg w m)) s

/-- LSR (immediate) (R130). -/
def execLsrImm (w : Width) (d n : Reg) (shift : BitVec 6) (s : State) : Out :=
  finishReg w d (s.readReg w n >>> shift.toNat) s

/-- LSR (register) (R127, R131). -/
def execLsrReg (w : Width) (d n m : Reg) (s : State) : Out :=
  finishReg w d (shiftRightReg s.launch.shiftRegAmount (s.readReg w n) (s.readReg w m)) s

end Sys2Proof.Machine
end

