-- ==== Sys2Proof/Machine/Dispatch.lean ====
section
/-! DEFINITION. One arm per instruction, each a direct call of its meaning. -/

namespace Sys2Proof.Machine

def exec (i : Instr) (s : State) : Host.Outcome State Fault Refusal :=
  match i with
  | .b imm26 => Sys2Proof.Machine.execB imm26 s
  | .bCond c imm19 => Sys2Proof.Machine.execBCond c imm19 s
  | .br n => Sys2Proof.Machine.execBr n s
  | .bl imm26 => Sys2Proof.Machine.execBl imm26 s
  | .blr n => Sys2Proof.Machine.execBlr n s
  | .cmpReg w n m => Sys2Proof.Machine.execCmpReg w n m s
  | .cmpImm w n imm12 => Sys2Proof.Machine.execCmpImm w n imm12 s
  | .addImm w d n imm12 => Sys2Proof.Machine.execAddImm w d n imm12 s
  | .addsImm w d n imm12 => Sys2Proof.Machine.execAddsImm w d n imm12 s
  | .subImm w d n imm12 => Sys2Proof.Machine.execSubImm w d n imm12 s
  | .subsImm w d n imm12 => Sys2Proof.Machine.execSubsImm w d n imm12 s
  | .addReg w d n m => Sys2Proof.Machine.execAddReg w d n m s
  | .addsReg w d n m => Sys2Proof.Machine.execAddsReg w d n m s
  | .subReg w d n m => Sys2Proof.Machine.execSubReg w d n m s
  | .subsReg w d n m => Sys2Proof.Machine.execSubsReg w d n m s
  | .adc w d n m => Sys2Proof.Machine.execAdc w d n m s
  | .adcs w d n m => Sys2Proof.Machine.execAdcs w d n m s
  | .sbc w d n m => Sys2Proof.Machine.execSbc w d n m s
  | .sbcs w d n m => Sys2Proof.Machine.execSbcs w d n m s
  | .mul w d n m => Sys2Proof.Machine.execMul w d n m s
  | .madd w d n m a => Sys2Proof.Machine.execMadd w d n m a s
  | .udiv w d n m => Sys2Proof.Machine.execUdiv w d n m s
  | .sdiv w d n m => Sys2Proof.Machine.execSdiv w d n m s
  | .and w d n m => Sys2Proof.Machine.execAnd w d n m s
  | .ands w d n m => Sys2Proof.Machine.execAnds w d n m s
  | .orr w d n m => Sys2Proof.Machine.execOrr w d n m s
  | .orn w d n m => Sys2Proof.Machine.execOrn w d n m s
  | .eor w d n m => Sys2Proof.Machine.execEor w d n m s
  | .eon w d n m => Sys2Proof.Machine.execEon w d n m s
  | .lslImm w d n shift => Sys2Proof.Machine.execLslImm w d n shift s
  | .lslReg w d n m => Sys2Proof.Machine.execLslReg w d n m s
  | .lsrImm w d n shift => Sys2Proof.Machine.execLsrImm w d n shift s
  | .lsrReg w d n m => Sys2Proof.Machine.execLsrReg w d n m s
  | .ldr w t n imm12 => Sys2Proof.Machine.execLdr w t n imm12 s
  | .str w t n imm12 => Sys2Proof.Machine.execStr w t n imm12 s
  | .strb t n imm12 => Sys2Proof.Machine.execStrb t n imm12 s
  | .strh t n imm12 => Sys2Proof.Machine.execStrh t n imm12 s
  | .movReg w d m => Sys2Proof.Machine.execMovReg w d m s
  | .movImm d imm16 => Sys2Proof.Machine.execMovImm d imm16 s

end Sys2Proof.Machine
end

