-- ==== Sys2Proof/Machine/Fetch.lean ====
section
/-! DEFINITION. Fetch (70_reset_and_hazards.md R183, R184) and the launch that puts one word where the
next fetch reads. -/

namespace Sys2Proof.Machine

/-- What a fetch finds. -/
inductive Fetch where
  /-- An instruction word. -/
  | word (I : InstrWord)
  /-- An `EXIT` address: the run has ended normally (R183). -/
  | ended
  /-- A fault of fetch (R162, R163). -/
  | abort (f : Fault)
deriving DecidableEq, Repr

/-- Fetch at `pc`, the tests in the order of R184. -/
def fetch (s : State) : Fetch :=
  if s.pc.toNat % 4 ≠ 0 then .abort (.pcAlignmentFault s.pc)
  else if s.launch.isExit s.pc then .ended
  else
    match s.launch.codeWord? s.pc with
    | some I => .word I
    | none => .abort (.fetchAbort s.pc)

/-- The launch in which `I` stands at `s.pc` (log entry 5). -/
def launchWith (s : State) (I : InstrWord) : Launch :=
  (s.launch.placeWord s.pc I).admitFor I

end Sys2Proof.Machine
end

