-- ==== Sys2Proof/Machine/Step.lean ====
section
/-! DEFINITION. One step: fetch, decode, execute (00_scope.md R8; 70_reset_and_hazards.md R184). -/

namespace Sys2Proof.Machine

/-- One step. At an `EXIT` address nothing is executed and the state is final: it is its own next state
(R183; log entry 9). -/
def step (s : State) : Host.Outcome State Fault Refusal :=
  match fetch s with
  | .abort f => raise f
  | .ended => .next s
  | .word I =>
    match decode s.launch.decoding I with
    | .error _ => raise (.undefinedInstruction I s.pc)
    | .ok i => exec i s

/-- `s` with the table word standing where the next fetch reads (log entry 5). -/
def State.withFetchWord (s : State) (nbits w : Nat) : State :=
  { s with launch := launchWith s (tableWord nbits w) }

end Sys2Proof.Machine
end

