-- ==== Sys2Proof/Machine/Assembly.lean ====
section
/-! DEFINITION. The assembler syntax the source shows (30_encoding.md R76), as data: a mnemonic and its
operands, with the ranges an assembler must enforce (R73 to R75, R127, R128). Labels are given by their
byte offset from the branch's own address (R73; the source has no other rule for them, N2). -/

namespace Sys2Proof.Machine

/-- A mnemonic of R76. CMP, MOV, LSL, LSR and the additive group stand for two instructions each, told
apart by their operands. -/
inductive Mnemonic where
  | b | bCond (c : Cond) | br | bl | blr | cmp
  | add | adds | sub | subs | adc | adcs | sbc | sbcs
  | mul | madd | udiv | sdiv
  | and | ands | orr | orn | eor | eon | lsl | lsr
  | ldr | str | strb | strh | mov
deriving DecidableEq, Repr

/-- An operand as written. -/
inductive Operand where
  /-- `<Wr>` or `<Xr>`. -/
  | reg (width : Width) (r : Reg)
  /-- `#<imm>`. -/
  | imm (value : Int)
  /-- `<label>`, by its byte offset. -/
  | label (offset : Int)
  /-- `[Xn]` or `[Xn,#<pimm>]`; the part in braces defaults to 0. -/
  | memory (base : Reg) (pimm : Option Int)
deriving DecidableEq, Repr

/-- A line of assembly. -/
structure AsmLine where
  mnemonic : Mnemonic
  operands : List Operand
deriving DecidableEq, Repr

/-! ### Ranges -/

/-- An unsigned immediate of `k` bits encoded divided by `scale`: not negative, a multiple of `scale`,
in range (R74, R75). -/
def unsignedImm? (k scale : Nat) (v : Int) : Option (BitVec k) :=
  if 0 ≤ v ∧ v % scale = 0 ∧ v / scale < 2 ^ k then some (BitVec.ofInt k (v / scale)) else none

/-- A branch offset of `k` bits: a multiple of 4 in `[-2^(k+1), 2^(k+1) - 4]` (R73). -/
def branchImm? (k : Nat) (offset : Int) : Option (BitVec k) :=
  if offset % 4 = 0 ∧ -2 ^ (k + 1) ≤ offset ∧ offset ≤ 2 ^ (k + 1) - 4 then
    some (BitVec.ofInt k (offset / 4))
  else none

/-- A shift amount: 0 to 31 or 0 to 63 by the width (R127, R128, R130). -/
def shiftImm? (w : Width) (v : Int) : Option (BitVec 6) :=
  if 0 ≤ v ∧ v < w.bits then some (BitVec.ofInt 6 v) else none

/-! ### From a line to an instruction -/

/-- `<Rd>, <Rn>, <Rm>`, all of one width. -/
def asmDnm (k : Width → Reg → Reg → Reg → Instr) : List Operand → Option Instr
  | [.reg w d, .reg w₁ n, .reg w₂ m] => if w₁ = w ∧ w₂ = w then some (k w d n m) else none
  | _ => none

/-- `<Rd>, <Rn>, <Rm>` or `<Rd>, <Rn>, #imm12`. -/
def asmAddSub (kr : Width → Reg → Reg → Reg → Instr) (ki : Width → Reg → Reg → BitVec 12 → Instr) :
    List Operand → Option Instr
  | [.reg w d, .reg w₁ n, .reg w₂ m] => asmDnm kr [.reg w d, .reg w₁ n, .reg w₂ m]
  | [.reg w d, .reg w₁ n, .imm v] => if w₁ = w then (unsignedImm? 12 1 v).map (ki w d n) else none
  | _ => none

/-- `<Rd>, <Rn>, <Rm>` or `<Rd>, <Rn>, #<shift>`. -/
def asmShift (kr : Width → Reg → Reg → Reg → Instr) (ki : Width → Reg → Reg → BitVec 6 → Instr) :
    List Operand → Option Instr
  | [.reg w d, .reg w₁ n, .reg w₂ m] => asmDnm kr [.reg w d, .reg w₁ n, .reg w₂ m]
  | [.reg w d, .reg w₁ n, .imm v] => if w₁ = w then (shiftImm? w v).map (ki w d n) else none
  | _ => none

/-- `<Rt>,[Xn{,#<pimm>}]` with the access size of the width. -/
def asmLoadStore (k : Width → Reg → Reg → BitVec 12 → Instr) : List Operand → Option Instr
  | [.reg w t, .memory n pimm] => (unsignedImm? 12 w.bytes (pimm.getD 0)).map (k w t n)
  | _ => none

/-- `<Wt>,[Xn{,#<pimm>}]` with access size `sz`. -/
def asmNarrowStore (sz : Nat) (k : Reg → Reg → BitVec 12 → Instr) : List Operand → Option Instr
  | [.reg .w32 t, .memory n pimm] => (unsignedImm? 12 sz (pimm.getD 0)).map (k t n)
  | _ => none

/-- The instruction a line spells (R76), if it spells one. -/
def assemble (l : AsmLine) : Option Instr :=
  match l.mnemonic, l.operands with
  | .b, [.label o] => (branchImm? 26 o).map .b
  | .bCond c, [.label o] => (branchImm? 19 o).map (.bCond c)
  | .br, [.reg .x64 n] => some (.br n)
  | .bl, [.label o] => (branchImm? 26 o).map .bl
  | .blr, [.reg .x64 n] => some (.blr n)
  | .cmp, [.reg w n, .reg w₁ m] => if w₁ = w then some (.cmpReg w n m) else none
  | .cmp, [.reg w n, .imm v] => (unsignedImm? 12 1 v).map (.cmpImm w n)
  | .add, ops => asmAddSub .addReg .addImm ops
  | .adds, ops => asmAddSub .addsReg .addsImm ops
  | .sub, ops => asmAddSub .subReg .subImm ops
  | .subs, ops => asmAddSub .subsReg .subsImm ops
  | .adc, ops => asmDnm .adc ops
  | .adcs, ops => asmDnm .adcs ops
  | .sbc, ops => asmDnm .sbc ops
  | .sbcs, ops => asmDnm .sbcs ops
  | .mul, ops => asmDnm .mul ops
  | .madd, [.reg w d, .reg w₁ n, .reg w₂ m, .reg w₃ a] =>
    if w₁ = w ∧ w₂ = w ∧ w₃ = w then some (.madd w d n m a) else none
  | .udiv, ops => asmDnm .udiv ops
  | .sdiv, ops => asmDnm .sdiv ops
  | .and, ops => asmDnm .and ops
  | .ands, ops => asmDnm .ands ops
  | .orr, ops => asmDnm .orr ops
  | .orn, ops => asmDnm .orn ops
  | .eor, ops => asmDnm .eor ops
  | .eon, ops => asmDnm .eon ops
  | .lsl, ops => asmShift .lslReg .lslImm ops
  | .lsr, ops => asmShift .lsrReg .lsrImm ops
  | .ldr, ops => asmLoadStore .ldr ops
  | .str, ops => asmLoadStore .str ops
  | .strb, ops => asmNarrowStore 1 .strb ops
  | .strh, ops => asmNarrowStore 2 .strh ops
  | .mov, [.reg w d, .reg w₁ m] => if w₁ = w then some (.movReg w d m) else none
  | .mov, [.reg .w32 d, .imm v] => (unsignedImm? 16 1 v).map (.movImm d)
  | _, _ => none

/-! ### From an instruction to its line -/

/-- A line with three register operands. -/
def lineDnm (k : Mnemonic) (w : Width) (d n m : Reg) : AsmLine :=
  ⟨k, [.reg w d, .reg w n, .reg w m]⟩

/-- A line with two register operands and an immediate. -/
def lineImm {b : Nat} (k : Mnemonic) (w : Width) (d n : Reg) (v : BitVec b) : AsmLine :=
  ⟨k, [.reg w d, .reg w n, .imm v.toNat]⟩

/-- A load or store line, its offset in bytes. -/
def lineMem (k : Mnemonic) (w : Width) (sz : Nat) (t n : Reg) (imm12 : BitVec 12) : AsmLine :=
  ⟨k, [.reg w t, .memory n (some (imm12.toNat * sz : Nat))]⟩

/-- The line of an instruction (R76). -/
def lineOf : Instr → AsmLine
  | .b imm26 => ⟨.b, [.label (imm26.toInt * 4)]⟩
  | .bCond c imm19 => ⟨.bCond c, [.label (imm19.toInt * 4)]⟩
  | .br n => ⟨.br, [.reg .x64 n]⟩
  | .bl imm26 => ⟨.bl, [.label (imm26.toInt * 4)]⟩
  | .blr n => ⟨.blr, [.reg .x64 n]⟩
  | .cmpReg w n m => ⟨.cmp, [.reg w n, .reg w m]⟩
  | .cmpImm w n imm12 => ⟨.cmp, [.reg w n, .imm imm12.toNat]⟩
  | .addImm w d n imm12 => lineImm .add w d n imm12
  | .addsImm w d n imm12 => lineImm .adds w d n imm12
  | .subImm w d n imm12 => lineImm .sub w d n imm12
  | .subsImm w d n imm12 => lineImm .subs w d n imm12
  | .addReg w d n m => lineDnm .add w d n m
  | .addsReg w d n m => lineDnm .adds w d n m
  | .subReg w d n m => lineDnm .sub w d n m
  | .subsReg w d n m => lineDnm .subs w d n m
  | .adc w d n m => lineDnm .adc w d n m
  | .adcs w d n m => lineDnm .adcs w d n m
  | .sbc w d n m => lineDnm .sbc w d n m
  | .sbcs w d n m => lineDnm .sbcs w d n m
  | .mul w d n m => lineDnm .mul w d n m
  | .madd w d n m a => ⟨.madd, [.reg w d, .reg w n, .reg w m, .reg w a]⟩
  | .udiv w d n m => lineDnm .udiv w d n m
  | .sdiv w d n m => lineDnm .sdiv w d n m
  | .and w d n m => lineDnm .and w d n m
  | .ands w d n m => lineDnm .ands w d n m
  | .orr w d n m => lineDnm .orr w d n m
  | .orn w d n m => lineDnm .orn w d n m
  | .eor w d n m => lineDnm .eor w d n m
  | .eon w d n m => lineDnm .eon w d n m
  | .lslImm w d n shift => lineImm .lsl w d n shift
  | .lslReg w d n m => lineDnm .lsl w d n m
  | .lsrImm w d n shift => lineImm .lsr w d n shift
  | .lsrReg w d n m => lineDnm .lsr w d n m
  | .ldr w t n imm12 => lineMem .ldr w w.bytes t n imm12
  | .str w t n imm12 => lineMem .str w w.bytes t n imm12
  | .strb t n imm12 => lineMem .strb .w32 1 t n imm12
  | .strh t n imm12 => lineMem .strh .w32 2 t n imm12
  | .movReg w d m => ⟨.mov, [.reg w d, .reg w m]⟩
  | .movImm d imm16 => ⟨.mov, [.reg .w32 d, .imm imm16.toNat]⟩

end Sys2Proof.Machine
end

