-- ==== Sys2Proof/Safety.lean ====
section
/-! DEFINITION. What counts as a safe run, and the invariant of the machine. -/

namespace Sys2Proof.Machine

/-- The run has ended normally: `pc` is a multiple of 4 and an `EXIT` address (R183). -/
def State.ended (s : State) : Bool :=
  decide (s.pc.toNat % 4 = 0) && s.launch.isExit s.pc

/-- From `s` no fault and no refusal is met within `k` steps. -/
def SafeFor (k : Nat) (s : State) : Prop :=
  ∃ t, Sys2Proof.core.run k s = .next t

/-- The run from `s` ends normally in `t` (R183): a fault is never the end of a successful run (R160). -/
def EndsIn (s t : State) : Prop :=
  ∃ k, Sys2Proof.core.run k s = .next t ∧ t.ended = true

/-- The invariant: memory keeps its canonical form, and it holds bytes only where the launch maps data
memory, so never in the code region (R31, R44). -/
structure State.Inv (s : State) : Prop where
  mem_wf : s.mem.wf
  mem_mapped : ∀ c ∈ s.mem, s.launch.dataMapped (BitVec.ofNat 64 c.1) = true

/-- `s` is a launch (R24, R180): `pc` is a multiple of 4 inside the code region, and the memory of `s` is one the
launch can hold. That the text is well formed, `launch_wf`, is the model's choice (log entry 20). Registers, flags
and the bytes at mapped addresses are free, the code region holds `CODE` by construction (`State.byteAt`), and no
state has a fault recorded in it. -/
structure State.IsLaunch (s : State) : Prop where
  launch_wf : s.launch.wf = true
  entry : s.launch.admitsEntry s.pc = true
  inv : s.Inv

end Sys2Proof.Machine
end

