-- ==== Sys2Proof/Certificates/Slice0/Obligations.lean ====
section
/-! DEFINITION. The statements for the provers. Each docstring names the rules it formalises; the
vocabulary before them restates the spec's notation (R7) without the meanings' own operations. -/

namespace Sys2Proof.Claims

open Sys2Proof.Machine

/-! ### Vocabulary -/

/-- `uint(R[r])`: the number the low `N` bits of register `r` spell (R7, R11). -/
def uint (s : State) (w : Width) (r : Reg) : Nat :=
  (s.x r).toNat % 2 ^ w.bits

/-- `sint_N` of an `N`-bit number (R7). -/
def sintOf (w : Width) (u : Nat) : Int :=
  if u < 2 ^ (w.bits - 1) then u else (u : Int) - 2 ^ w.bits

/-- `sint(R[r])` (R7). -/
def sint (s : State) (w : Width) (r : Reg) : Int :=
  sintOf w (uint s w r)

/-- The frame of a data-processing instruction: every register but `d`, all of memory and the launch as
before, `pc` at the next instruction (R8, R16, R19). -/
def Frame (s t : State) (d : Reg) : Prop :=
  (∀ r, r ≠ d → t.x r = s.x r) ∧ t.mem = s.mem ∧ (∀ a : Addr, t.byteAt a = s.byteAt a) ∧
    t.launch = s.launch ∧ t.pc = s.pc + 4#64

/-- `t` is `s` with `R[d] <- v` for an `N`-bit number `v`, bits 63:N clear (R7, R12); the four flags and
the frame as before. -/
def WritesReg (s t : State) (d : Reg) (v : Nat) : Prop :=
  t.x d = BitVec.ofNat 64 v ∧ t.flags = s.flags ∧ Frame s t d

/-- The same, with flags that meet `F`. -/
def WritesRegFlags (s t : State) (d : Reg) (v : Nat) (F : Flags → Prop) : Prop :=
  t.x d = BitVec.ofNat 64 v ∧ F t.flags ∧ Frame s t d

/-- `t` is `s` with flags that meet `F`, no register written. -/
def WritesFlags (s t : State) (F : Flags → Prop) : Prop :=
  F t.flags ∧ (∀ r, t.x r = s.x r) ∧ t.mem = s.mem ∧ (∀ a : Addr, t.byteAt a = s.byteAt a) ∧
    t.launch = s.launch ∧ t.pc = s.pc + 4#64

/-- Registers other than those that meet `R`, the flags, all of memory and the launch are as before: the
frame of a branch (R14, R19). -/
def BranchFrame (s t : State) (R : Reg → Prop) : Prop :=
  (∀ r, ¬ R r → t.x r = s.x r) ∧ t.flags = s.flags ∧ t.mem = s.mem ∧
    (∀ a : Addr, t.byteAt a = s.byteAt a) ∧ t.launch = s.launch

/-- `pc` after a PC-relative branch by `k` words from `s` (R16, R73). -/
def JumpsBy (s t : State) (k : Int) : Prop :=
  (t.pc.toNat : Int) = (s.pc.toNat + 4 * k) % 2 ^ 64

/-- The flags of a sum: `usum` and `ssum` are the exact unsigned and signed sums (R95). -/
def SumFlags (w : Width) (usum : Nat) (ssum : Int) (f : Flags) : Prop :=
  (f.n = true ↔ 2 ^ (w.bits - 1) ≤ usum % 2 ^ w.bits) ∧ (f.z = true ↔ usum % 2 ^ w.bits = 0) ∧
    (f.c = true ↔ 2 ^ w.bits ≤ usum) ∧
    (f.v = true ↔ ssum < -2 ^ (w.bits - 1) ∨ (2 : Int) ^ (w.bits - 1) ≤ ssum)

/-- The difference of two `N`-bit numbers modulo `2^N`. -/
def diff (w : Width) (a b : Nat) : Nat :=
  (a + 2 ^ w.bits - b) % 2 ^ w.bits

/-- The flags of `a - b`: Z says equal, C says no borrow, V that the signed difference does not fit (R95). -/
def DiffFlags (w : Width) (a b : Nat) (f : Flags) : Prop :=
  (f.n = true ↔ 2 ^ (w.bits - 1) ≤ diff w a b) ∧ (f.z = true ↔ a = b) ∧ (f.c = true ↔ b ≤ a) ∧
    (f.v = true ↔ sintOf w a - sintOf w b < -2 ^ (w.bits - 1) ∨
      (2 : Int) ^ (w.bits - 1) ≤ sintOf w a - sintOf w b)

/-- The carry flag as a number. -/
def carry (s : State) : Nat :=
  if s.flags.c then 1 else 0

/-- An access of `n` bytes at `addr` meets no fault: aligned where that is required, every byte mapped
(R34, R35). -/
def Accessible (s : State) (addr : Addr) (n : Nat) : Prop :=
  (s.launch.strictAlign = true → addr.toNat % n = 0) ∧
    ∀ k < n, s.launch.dataMapped (addr + BitVec.ofNat 64 k) = true

/-- Where byte `k` of an `n`-byte value stands in the order of rising addresses: at `k` when
little-endian (R32), at `n-1-k` under `BIG_ENDIAN` (log entry 7). -/
def place (s : State) (n k : Nat) : Nat :=
  if s.launch.bigEndian then n - 1 - k else k

/-- `t` is `s` with the low `n` bytes of `v` stored at `addr` and nothing else changed but `pc`. -/
def Stores (s t : State) (addr : Addr) (n : Nat) (v : Word64) : Prop :=
  (∀ k < n, t.byteAt (addr + BitVec.ofNat 64 (place s n k)) = some (v.extractLsb' (8 * k) 8)) ∧
    (∀ a : Addr, (∀ k < n, a ≠ addr + BitVec.ofNat 64 k) → t.byteAt a = s.byteAt a) ∧
    (∀ r, t.x r = s.x r) ∧ t.flags = s.flags ∧ t.launch = s.launch ∧ t.pc = s.pc + 4#64

/-- The access of a load or store: its size and its address, computed as the meanings compute it. -/
def accessOf (s : State) : Instr → Option (Nat × Addr)
  | .ldr w _ n imm12 => some (w.bytes, accessAddress s n imm12 w.bytes)
  | .str w _ n imm12 => some (w.bytes, accessAddress s n imm12 w.bytes)
  | .strb _ n imm12 => some (1, accessAddress s n imm12 1)
  | .strh _ n imm12 => some (2, accessAddress s n imm12 2)
  | _ => none

/-- The registers an instruction writes: the last column of R14's table. -/
def writtenReg : Instr → Option Reg
  | .b _ | .bCond _ _ | .br _ => none
  | .bl _ | .blr _ => some 30
  | .cmpReg _ _ _ | .cmpImm _ _ _ => none
  | .addImm _ d _ _ | .addsImm _ d _ _ | .subImm _ d _ _ | .subsImm _ d _ _ => some d
  | .addReg _ d _ _ | .addsReg _ d _ _ | .subReg _ d _ _ | .subsReg _ d _ _ => some d
  | .adc _ d _ _ | .adcs _ d _ _ | .sbc _ d _ _ | .sbcs _ d _ _ => some d
  | .mul _ d _ _ | .udiv _ d _ _ | .sdiv _ d _ _ | .madd _ d _ _ _ => some d
  | .and _ d _ _ | .ands _ d _ _ | .orr _ d _ _ | .orn _ d _ _ | .eor _ d _ _ | .eon _ d _ _ => some d
  | .lslImm _ d _ _ | .lslReg _ d _ _ | .lsrImm _ d _ _ | .lsrReg _ d _ _ => some d
  | .ldr _ t _ _ => some t
  | .str _ _ _ _ | .strb _ _ _ | .strh _ _ _ => none
  | .movReg _ d _ => some d
  | .movImm d _ => some d

/-- The registers an instruction reads: the middle column of R14's table. -/
def readRegs : Instr → List Reg
  | .b _ | .bCond _ _ | .bl _ => []
  | .br n | .blr n => [n]
  | .cmpReg _ n m => [n, m]
  | .cmpImm _ n _ => [n]
  | .addImm _ _ n _ | .addsImm _ _ n _ | .subImm _ _ n _ | .subsImm _ _ n _ => [n]
  | .addReg _ _ n m | .addsReg _ _ n m | .subReg _ _ n m | .subsReg _ _ n m => [n, m]
  | .adc _ _ n m | .adcs _ _ n m | .sbc _ _ n m | .sbcs _ _ n m => [n, m]
  | .mul _ _ n m | .udiv _ _ n m | .sdiv _ _ n m => [n, m]
  | .madd _ _ n m a => [n, m, a]
  | .and _ _ n m | .ands _ _ n m | .orr _ _ n m | .orn _ _ n m | .eor _ _ n m | .eon _ _ n m => [n, m]
  | .lslImm _ _ n _ | .lsrImm _ _ n _ => [n]
  | .lslReg _ _ n m | .lsrReg _ _ n m => [n, m]
  | .ldr _ _ n _ => [n]
  | .str _ t n _ | .strb t n _ | .strh t n _ => [n, t]
  | .movReg _ _ m => [m]
  | .movImm _ _ => []

/-- The writers of the flags (R19). -/
def writesFlags : Instr → Bool
  | .cmpReg _ _ _ | .cmpImm _ _ _ | .addsImm _ _ _ _ | .subsImm _ _ _ _ => true
  | .addsReg _ _ _ _ | .subsReg _ _ _ _ | .adcs _ _ _ _ | .sbcs _ _ _ _ | .ands _ _ _ _ => true
  | _ => false

/-- The readers of the carry flag beside B.cond (R20). -/
def readsCarry : Instr → Bool
  | .adc _ _ _ _ | .adcs _ _ _ _ | .sbc _ _ _ _ | .sbcs _ _ _ _ => true
  | _ => false

/-- The classes of R51's box. -/
inductive WordClass where
  | immediate | branch | register | loadStore
deriving DecidableEq, Repr

/-- The class R51 puts an instruction in. -/
def classOf : Instr → WordClass
  | .b _ | .bCond _ _ | .br _ | .bl _ | .blr _ => .branch
  | .cmpImm _ _ _ | .addImm _ _ _ _ | .addsImm _ _ _ _ | .subImm _ _ _ _ | .subsImm _ _ _ _ => .immediate
  | .lslImm _ _ _ _ | .lsrImm _ _ _ _ | .movImm _ _ => .immediate
  | .ldr _ _ _ _ | .str _ _ _ _ | .strb _ _ _ | .strh _ _ _ => .loadStore
  | _ => .register

/-- The pattern of a class on `I[28:25]`: `100x`, `101x`, `x101`, `x1x0` (R51). -/
def ClassPattern (c : WordClass) (bits : BitVec 4) : Prop :=
  match c with
  | .immediate => bits.extractLsb' 1 3 = 0b100#3
  | .branch => bits.extractLsb' 1 3 = 0b101#3
  | .register => bits.extractLsb' 0 3 = 0b101#3
  | .loadStore => bits.extractLsb' 2 1 = 1#1 ∧ bits.extractLsb' 0 1 = 0#1

/-- The rows of R72 that contain no other row, in its order, and those of R68 and R69. -/
def outerRows : List (InstrWord → Bool) :=
  [rowB, rowBl, rowBCond, rowBr, rowBlr, rowAsi, rowAsr, rowAcr, rowMadd, rowUdiv, rowSdiv, rowLog, rowLdr,
    rowStr, rowStrb, rowStrh, rowMvi, rowLslr, rowLsrr, rowShi]

/-- The stores (R39). -/
def isStore : Instr → Bool
  | .str _ _ _ _ | .strb _ _ _ | .strh _ _ _ => true
  | _ => false

end Sys2Proof.Claims

open Sys2Proof Sys2Proof.Machine Sys2Proof.Claims

/-! ### Reset and invariants -/

/-- The parameters of R5 that have a default stand at it in the reset state, and `pc` is `ENTRY = CODE_BASE`,
a multiple of 4 inside the code region (R5, R17, R24, R180). That the text is well formed, `launch.wf`, is the
model's choice (log entry 20), which no rule gives. The values of the four parameters given per launch (log entries
2, 3) are not stated. -/
def Obligations.ResetHoldsTheDefaultParameters : Prop :=
  State.reset.launch.strictAlign = true ∧ State.reset.launch.bigEndian = false ∧
    State.reset.launch.shiftRegAmount = .modulo ∧ State.reset.launch.divZero = .zero ∧
    State.reset.launch.divOverflow = .wrap ∧ State.reset.launch.decoding.cond1111 = .refuse ∧
    State.reset.launch.decoding.admitShiftEncodings = false ∧
    State.reset.pc = State.reset.launch.codeBase ∧ State.reset.pc.toNat % 4 = 0 ∧
    State.reset.launch.inCode State.reset.pc = true ∧ State.reset.launch.wf = true

/-- The reset state meets the invariant (R31). -/
def Obligations.ResetMeetsTheInvariant : Prop :=
  State.reset.Inv

/-- Every step keeps the invariant: memory stays canonical, and bytes are held only at mapped data
addresses outside the code region (R31, R35, R44). -/
def Obligations.StepKeepsTheInvariant : Prop :=
  ∀ s t : State, s.Inv → step s = .next t → t.Inv

/-- The program text is immutable: no step changes the launch or a byte of the code region, and a data
read or write that touches the code region is a DataAbort once its alignment is in order (R44). -/
def Obligations.ProgramTextIsImmutable : Prop :=
  (∀ s t : State, step s = .next t →
    t.launch = s.launch ∧ ∀ a : Addr, s.launch.inCode a = true → t.byteAt a = s.byteAt a) ∧
  (∀ (s : State) (addr : Addr) (n k : Nat) (v : BitVec (8 * n)), k < n →
    s.launch.inCode (addr + BitVec.ofNat 64 k) = true →
    (s.launch.strictAlign = true → addr.toNat % n = 0) →
    memRead s addr n = .error (.dataAbort addr) ∧ memWrite s addr n v = .error (.dataAbort addr))

/-! ### Encoding -/

/-- Decoding the word of a well-formed instruction gives it back, with every operand at every value; the
one pair of instructions with one word is `LSL #0` and `LSR #0`, which decodes to the latter (R53 to R72). -/
def Obligations.DecodeOfEncodeIsTheInstruction : Prop :=
  ∀ (p : DecodeParams) (i : Instr), i.wf = true → (i.isShift = true → p.admitShiftEncodings = true) →
    decode p (encode i) = .ok i.canonical ∧
      (i.canonical = i ∨ ∃ w d n, i = .lslImm w d n 0#6 ∧ i.canonical = .lsrImm w d n 0#6)

/-- A word that decodes is the word of the instruction it decodes to, which is well formed: each word has
one meaning and no bit of it is ignored (R53 to R72). -/
def Obligations.EncodeOfDecodeIsTheWord : Prop :=
  ∀ (p : DecodeParams) (I : InstrWord) (i : Instr), p.cond1111 = .refuse → decode p I = .ok i →
    encode i = I ∧ i.wf = true ∧ i.canonical = i

/-- Every row of the decoder is the mask-and-match test of R72 (and of R68, R69 for the optional rows). -/
def Obligations.DecoderRowsAreMaskAndMatch : Prop :=
  ∀ I : InstrWord,
    (rowB I = (I &&& 0xFC000000#32 == 0x14000000#32)) ∧
    (rowBl I = (I &&& 0xFC000000#32 == 0x94000000#32)) ∧
    (rowBCond I = (I &&& 0xFF000010#32 == 0x54000000#32)) ∧
    (rowBr I = (I &&& 0xFFFFFC1F#32 == 0xD61F0000#32)) ∧
    (rowBlr I = (I &&& 0xFFFFFC1F#32 == 0xD63F0000#32)) ∧
    (rowCmr I = (I &&& 0x7FE0FC1F#32 == 0x6B00001F#32)) ∧
    (rowCmi I = (I &&& 0x7FC0001F#32 == 0x7100001F#32)) ∧
    (rowAsi I = (I &&& 0x1FC00000#32 == 0x11000000#32)) ∧
    (rowAsr I = (I &&& 0x1FE0FC00#32 == 0x0B000000#32)) ∧
    (rowAcr I = (I &&& 0x1FE0FC00#32 == 0x1A000000#32)) ∧
    (rowMul I = (I &&& 0x7FE0FC00#32 == 0x1B007C00#32)) ∧
    (rowMadd I = (I &&& 0x7FE08000#32 == 0x1B000000#32)) ∧
    (rowUdiv I = (I &&& 0x7FE0FC00#32 == 0x1AC00800#32)) ∧
    (rowSdiv I = (I &&& 0x7FE0FC00#32 == 0x1AC00C00#32)) ∧
    (rowMvr I = (I &&& 0x7FE0FFE0#32 == 0x2A0003E0#32)) ∧
    (rowLog I = (I &&& 0x1FC0FC00#32 == 0x0A000000#32)) ∧
    (rowLdr I = (I &&& 0xBFC00000#32 == 0xB9400000#32)) ∧
    (rowStr I = (I &&& 0xBFC00000#32 == 0xB9000000#32)) ∧
    (rowStrb I = (I &&& 0xFFC00000#32 == 0x39000000#32)) ∧
    (rowStrh I = (I &&& 0xFFC00000#32 == 0x79000000#32)) ∧
    (rowMvi I = (I &&& 0xFFE00000#32 == 0x52800000#32)) ∧
    (rowLslr I = (I &&& 0x7FE0FC00#32 == 0x1AC02000#32)) ∧
    (rowLsrr I = (I &&& 0x7FE0FC00#32 == 0x1AC02400#32)) ∧
    (rowShi I = (I &&& 0x7F800000#32 == 0x53000000#32 && I.getLsbD 22 == I.getLsbD 31))

/-- The rows of R72 exclude one another, but for the four nested in another: CMP in SUBS (register and
immediate), MUL in MADD, MOV (register) in ORR; and a word of a nested row decodes to its instruction or is
unallocated, never to the outer row's (R72, R92, R152). -/
def Obligations.DecoderRowsAreDisjointButForTheNestedPairs : Prop :=
  outerRows.Pairwise (fun f g => ∀ I, f I = true → g I = false) ∧
  (∀ I, rowCmr I = true → rowAsr I = true) ∧ (∀ I, rowCmi I = true → rowAsi I = true) ∧
  (∀ I, rowMul I = true → rowMadd I = true) ∧ (∀ I, rowMvr I = true → rowLog I = true) ∧
  (∀ (p : DecodeParams) (I : InstrWord) (i : Instr), decode p I = .ok i →
    (rowCmr I = true → ∃ w n m, i = .cmpReg w n m) ∧ (rowCmi I = true → ∃ w n k, i = .cmpImm w n k) ∧
    (rowMul I = true → ∃ w d n m, i = .mul w d n m) ∧ (rowMvr I = true → ∃ w d m, i = .movReg w d m))

/-- A word that decodes has, in bits 28:25, the pattern of its instruction's class; the six values in no class are
unallocated (R51). -/
def Obligations.DecodedWordsLieInTheirClass : Prop :=
  ∀ (p : DecodeParams) (I : InstrWord),
    (∀ i, decode p I = .ok i → ClassPattern (classOf i) (I.extractLsb' 25 4)) ∧
    (I.extractLsb' 25 4 ∈ [0b0000#4, 0b0001#4, 0b0010#4, 0b0011#4, 0b0111#4, 0b1111#4] →
      ∃ e, decode p I = .error e)

/-- A word with 31 in a free register field is unallocated: the free fields of each format of R71. The
fixed `11111` of CMP, MOV (register) and MUL are not free fields. -/
def Obligations.RegisterField31IsUnallocated : Prop :=
  ∀ (p : DecodeParams) (I : InstrWord),
    let d31 := I.extractLsb' 0 5 = 31#5
    let n31 := I.extractLsb' 5 5 = 31#5
    let a31 := I.extractLsb' 10 5 = 31#5
    let m31 := I.extractLsb' 16 5 = 31#5
    ((rowBr I ∨ rowBlr I) ∧ n31) ∨ (rowCmr I ∧ (m31 ∨ n31)) ∨ (rowCmi I ∧ n31) ∨
      (rowAsi I ∧ ¬ rowCmi I ∧ (n31 ∨ d31)) ∨ (rowAsr I ∧ ¬ rowCmr I ∧ (m31 ∨ n31 ∨ d31)) ∨
      (rowAcr I ∧ (m31 ∨ n31 ∨ d31)) ∨ (rowMul I ∧ (m31 ∨ n31 ∨ d31)) ∨
      (rowMadd I ∧ ¬ rowMul I ∧ (m31 ∨ a31 ∨ n31 ∨ d31)) ∨
      ((rowUdiv I ∨ rowSdiv I) ∧ (m31 ∨ n31 ∨ d31)) ∨
      (rowLog I ∧ ¬ rowMvr I ∧ (m31 ∨ n31 ∨ d31)) ∨ (rowMvr I ∧ (m31 ∨ d31)) ∨
      ((rowLdr I ∨ rowStr I ∨ rowStrb I ∨ rowStrh I) ∧ (n31 ∨ d31)) ∨ (rowMvi I ∧ d31) ∨
      ((rowLslr I ∨ rowLsrr I) ∧ (m31 ∨ n31 ∨ d31)) ∨ (rowShi I ∧ (n31 ∨ d31)) →
    ∃ e, decode p I = .error e

/-- Under the default `ADMIT_SHIFT_ENCODINGS = false` no word decodes to LSL or LSR, and the word of each
is unallocated (R67). -/
def Obligations.ShiftWordsAreUnallocatedUnlessAdmitted : Prop :=
  ∀ p : DecodeParams, p.admitShiftEncodings = false →
    (∀ I i, decode p I = .ok i → i.isShift = false) ∧
    (∀ i : Instr, i.wf = true → i.isShift = true → ∃ e, decode p (encode i) = .error e)

/-- Words written out from the spec's examples decode to the instructions they stand for. -/
def Obligations.ExampleWordsDecodeAsWritten : Prop :=
  decode .initial 0x17FFFFFF#32 = .ok (.b (-1)) ∧
    decode .initial 0x54FFFFE1#32 = .ok (.bCond .ne (-1)) ∧
    decode .initial 0xD63F0040#32 = .ok (.blr 2) ∧
    decode .initial 0x6B02003F#32 = .ok (.cmpReg .w32 1 2) ∧
    decode .initial 0xD1004064#32 = .ok (.subImm .x64 4 3 16) ∧
    decode .initial 0xBA030025#32 = .ok (.adcs .x64 5 1 3) ∧
    decode .initial 0x9B020C20#32 = .ok (.madd .x64 0 1 2 3) ∧
    decode .initial 0x4A2500A5#32 = .ok (.eon .w32 5 5 5) ∧
    decode .admitting 0xD37FFC20#32 = .ok (.lsrImm .x64 0 1 63) ∧
    decode .initial 0x793FFC22#32 = .ok (.strh 2 1 0xFFF) ∧
    decode .initial 0xAA1E03F3#32 = .ok (.movReg .x64 19 30) ∧
    decode .initial 0x52824687#32 = .ok (.movImm 7 0x1234)

/-- Assembling the line of a well-formed instruction gives it back (R76). -/
def Obligations.AssembleOfLineIsTheInstruction : Prop :=
  ∀ i : Instr, i.wf = true → assemble (lineOf i) = some i

/-- An assembler accepts exactly the offsets of R75 and R73: a load/store offset that is a multiple of the
size in its range, a branch offset that is a multiple of 4 in its range. -/
def Obligations.AssemblerAcceptsExactlyTheRanges : Prop :=
  (∀ (w : Width) (t n : Reg) (o : Int),
    ((assemble ⟨.ldr, [.reg w t, .memory n (some o)]⟩).isSome ↔
      0 ≤ o ∧ o ≤ 4095 * w.bytes ∧ (w.bytes : Int) ∣ o) ∧
    ((assemble ⟨.str, [.reg w t, .memory n (some o)]⟩).isSome ↔
      0 ≤ o ∧ o ≤ 4095 * w.bytes ∧ (w.bytes : Int) ∣ o) ∧
    ((assemble ⟨.strh, [.reg .w32 t, .memory n (some o)]⟩).isSome ↔ 0 ≤ o ∧ o ≤ 8190 ∧ 2 ∣ o) ∧
    ((assemble ⟨.strb, [.reg .w32 t, .memory n (some o)]⟩).isSome ↔ 0 ≤ o ∧ o ≤ 4095)) ∧
  (∀ (c : Cond) (o : Int),
    ((assemble ⟨.b, [.label o]⟩).isSome ↔ -2 ^ 27 ≤ o ∧ o ≤ 2 ^ 27 - 4 ∧ 4 ∣ o) ∧
    ((assemble ⟨.bl, [.label o]⟩).isSome ↔ -2 ^ 27 ≤ o ∧ o ≤ 2 ^ 27 - 4 ∧ 4 ∣ o) ∧
    ((assemble ⟨.bCond c, [.label o]⟩).isSome ↔ -2 ^ 20 ≤ o ∧ o ≤ 2 ^ 20 - 4 ∧ 4 ∣ o))

/-! ### The step -/

/-- When the word at `pc` decodes, the step is the instruction's meaning at that state (R8, R184). -/
def Obligations.StepRunsTheDecodedInstruction : Prop :=
  ∀ (s : State) (I : InstrWord) (i : Instr),
    s.pc.toNat % 4 = 0 → s.launch.isExit s.pc = false → s.launch.codeWord? s.pc = some I →
    decode s.launch.decoding I = .ok i → step s = exec i s

/-- The word fetched at a `pc` where a word of `CODE` begins, a multiple of 4 past `CODE_BASE`, is the little-endian
assembly of the four bytes there (R33), and is the word of `CODE` at `(pc - CODE_BASE) / 4` (R184). -/
def Obligations.FetchedWordIsTheLittleEndianBytes : Prop :=
  ∀ (s : State) (I : InstrWord), (s.pc - s.launch.codeBase).toNat % 4 = 0 →
    s.launch.codeWord? s.pc = some I →
    s.launch.code[(s.pc - s.launch.codeBase).toNat / 4]? = some I ∧
      ∃ b₀ b₁ b₂ b₃ : Byte, s.byteAt s.pc = some b₀ ∧ s.byteAt (s.pc + 1#64) = some b₁ ∧
        s.byteAt (s.pc + 2#64) = some b₂ ∧ s.byteAt (s.pc + 3#64) = some b₃ ∧
        I = b₃ ++ b₂ ++ b₁ ++ b₀

/-- A launch, its `pc` a multiple of 4 inside the code region (R180) of a well-formed text (log entry 20),
begins with a word of `CODE`: the run has not ended and no fetch faults; the first step runs the word if it
decodes, else it is an UndefinedInstruction. -/
def Obligations.LaunchBeginsWithAWordOfTheText : Prop :=
  ∀ s : State, s.IsLaunch →
    s.pc.toNat % 4 = 0 ∧ s.launch.inCode s.pc = true ∧ s.ended = false ∧
      ∃ I, s.launch.code[(s.pc - s.launch.codeBase).toNat / 4]? = some I ∧
        (∀ i, decode s.launch.decoding I = .ok i → step s = exec i s) ∧
        (∀ e, decode s.launch.decoding I = .error e → step s = .fault (.undefinedInstruction I s.pc))

/-- A word launched with `withFetchWord` stands where a launch may enter (R180), it is the next word the machine
fetches, and step runs what it decodes to, with the optional encodings admitted where the word needs them (log
entries 5, 6). -/
def Obligations.LaunchedWordIsFetchedAndRun : Prop :=
  ∀ (s : State) (w : Nat) (i : Instr), s.pc.toNat % 4 = 0 →
    4 * (s.launch.code.length + 1) < 2 ^ 64 → s.launch.decoding.cond1111 = .refuse →
    decodeTableWord 32 w = some i →
    (s.withFetchWord 32 w).launch.admitsEntry (s.withFetchWord 32 w).pc = true ∧
      step (s.withFetchWord 32 w) = exec i (s.withFetchWord 32 w)

/-- A fetch at a misaligned `pc` is a PCAlignmentFault, whatever `EXIT` says; a step leaves such a `pc`
only by BR or BLR, which complete (R163). -/
def Obligations.MisalignedPcFaultsAndComesOnlyFromBrOrBlr : Prop :=
  (∀ s : State, s.pc.toNat % 4 ≠ 0 → step s = .fault (.pcAlignmentFault s.pc)) ∧
  (∀ s t : State, step s = .next t → t.pc.toNat % 4 ≠ 0 →
    ∃ I n, s.launch.codeWord? s.pc = some I ∧
      (decode s.launch.decoding I = .ok (.br n) ∨
        (decode s.launch.decoding I = .ok (.blr n) ∧ t.x 30 = s.pc + 4#64)))

/-- A fetch at a multiple of 4 neither in the code region nor an `EXIT` address is a FetchAbort (R162). -/
def Obligations.FetchOutsideTheCodeAborts : Prop :=
  ∀ s : State, s.pc.toNat % 4 = 0 → s.launch.inCode s.pc = false → s.launch.isExit s.pc = false →
    step s = .fault (.fetchAbort s.pc)

/-- An unallocated word at `pc` is an UndefinedInstruction that records the word and `pc` (R161). -/
def Obligations.UnallocatedWordIsUndefined : Prop :=
  ∀ (s : State) (I : InstrWord) (e : Unallocated),
    s.pc.toNat % 4 = 0 → s.launch.isExit s.pc = false → s.launch.codeWord? s.pc = some I →
    decode s.launch.decoding I = .error e → step s = .fault (.undefinedInstruction I s.pc)

/-- At an `EXIT` address the run has ended: nothing is executed and the state is final (R183; that a final
state is its own next state is the model's choice, log entry 9). The end of the text and the members of
`EXIT_SET` outside the text are `EXIT` addresses. -/
def Obligations.RunEndsAtExitAddresses : Prop :=
  (∀ s : State, s.pc.toNat % 4 = 0 → s.launch.isExit s.pc = true → step s = .next s) ∧
  (∀ (l : Launch) (a : Addr), l.isExit a = true ↔
    a = l.codeBase + BitVec.ofNat 64 (4 * l.code.length) ∨ (a ∈ l.exitSet ∧ l.inCode a = false))

/-- Every fault has the cause the spec gives it, in the order of R167: alignment of `pc`, fetch outside the
code, decode, alignment of the data access, mapping of the data access (R160 to R164, R167). -/
def Obligations.EveryFaultHasItsCauseInOrder : Prop :=
  ∀ (s : State) (f : Fault), step s = .fault f →
    (f = .pcAlignmentFault s.pc ∧ s.pc.toNat % 4 ≠ 0) ∨
    (s.pc.toNat % 4 = 0 ∧ s.launch.isExit s.pc = false ∧
      ((f = .fetchAbort s.pc ∧ s.launch.inCode s.pc = false) ∨
        ∃ I, s.launch.codeWord? s.pc = some I ∧
          ((f = .undefinedInstruction I s.pc ∧ ∃ e, decode s.launch.decoding I = .error e) ∨
            ∃ i sz a, decode s.launch.decoding I = .ok i ∧ accessOf s i = some (sz, a) ∧
              ((f = .alignmentFault a ∧ s.launch.strictAlign = true ∧ a.toNat % sz ≠ 0) ∨
                (f = .dataAbort a ∧ (s.launch.strictAlign = true → a.toNat % sz = 0) ∧
                  ∃ k < sz, s.launch.dataMapped (a + BitVec.ofNat 64 k) = false)))))

/-- No instruction and no step is refused: the spec gives every instruction its effect (R3, R172). -/
def Obligations.NothingIsRefused : Prop :=
  (∀ (i : Instr) (s : State) (r : Refusal), exec i s ≠ .refused r) ∧
    ∀ (s : State) (r : Refusal), step s ≠ .refused r

/-! ### Whole-machine rules -/

/-- Exactly the listed instructions write the flags, and each writes all four: what it leaves does not
depend on the flags before, beyond the carry that ADCS and SBCS read (R19). -/
def Obligations.FlagsAreWrittenOnlyByTheListedInstructions : Prop :=
  (∀ (i : Instr) (s t : State), exec i s = .next t → writesFlags i = false → t.flags = s.flags) ∧
  (∀ (i : Instr) (s t : State) (f : Flags), exec i s = .next t → writesFlags i = true →
    (readsCarry i = true → f.c = s.flags.c) →
    ∃ t', exec i (s.setFlags f) = .next t' ∧ t'.flags = t.flags)

/-- No instruction but B.cond and the carry readers reads a flag: changing the flags before it changes
nothing it leaves but, where it writes none, the flags themselves; a carry reader reads C alone (R20). -/
def Obligations.FlagsAreReadOnlyByTheListedInstructions : Prop :=
  ∀ (i : Instr) (s t : State) (f : Flags), exec i s = .next t → (∀ c k, i ≠ .bCond c k) →
    (readsCarry i = true → f.c = s.flags.c) →
    exec i (s.setFlags f) = .next (if writesFlags i then t else t.setFlags f)

/-- An instruction writes no general register but the one the access table of R14 lists. -/
def Obligations.RegistersAreWrittenOnlyAsTheTableSays : Prop :=
  ∀ (i : Instr) (s t : State), exec i s = .next t →
    ∀ r : Reg, writtenReg i ≠ some r → t.x r = s.x r

/-- An instruction reads no general register but those the access table of R14 lists: changing any other
register before it changes nothing it leaves but that register. -/
def Obligations.RegistersAreReadOnlyAsTheTableSays : Prop :=
  ∀ (i : Instr) (s t : State) (r : Reg) (v : Word64), exec i s = .next t → r ∉ readRegs i →
    (writtenReg i = some r → exec i (s.setX r v) = .next t) ∧
    (writtenReg i ≠ some r → exec i (s.setX r v) = .next (t.setX r v))

/-- Only STR, STRB and STRH change memory, and each only in the bytes of its access (R23, R39, R140). -/
def Obligations.OnlyStoresChangeMemory : Prop :=
  ∀ (i : Instr) (s t : State), exec i s = .next t →
    (isStore i = false → t.mem = s.mem ∧ ∀ a : Addr, t.byteAt a = s.byteAt a) ∧
    (∀ sz addr, isStore i = true → accessOf s i = some (sz, addr) →
      ∀ a : Addr, (∀ k < sz, a ≠ addr + BitVec.ofNat 64 k) → t.byteAt a = s.byteAt a)

/-! ### Branches -/

/-- The table of R80, row by row: the condition each value of `cond` names, and when it holds. A B.cond word
with 1111 is unallocated under `COND1111 = refuse` and treated like 1110 under `always`; each odd row negates the even row before it. -/
def Obligations.ConditionsHoldAsTheTableSays : Prop :=
  (∀ p : Cond1111,
    [0b0000#4, 0b0001#4, 0b0010#4, 0b0011#4, 0b0100#4, 0b0101#4, 0b0110#4, 0b0111#4, 0b1000#4, 0b1001#4,
      0b1010#4, 0b1011#4, 0b1100#4, 0b1101#4, 0b1110#4].map (condOf p) =
    [.eq, .ne, .cs, .cc, .mi, .pl, .vs, .vc, .hi, .ls, .ge, .lt, .gt, .le, .al].map some) ∧
  (∀ (p : DecodeParams) (I : InstrWord), rowBCond I = true → I.extractLsb' 0 4 = 0b1111#4 →
    (p.cond1111 = .refuse → ∃ e, decode p I = .error e) ∧
    (p.cond1111 = .always → decode p I = .ok (.bCond .al (I.extractLsb' 5 19)))) ∧
  ∀ f : Flags,
    (conditionHolds .eq f ↔ f.z = true) ∧ (conditionHolds .ne f ↔ f.z = false) ∧
    (conditionHolds .cs f ↔ f.c = true) ∧ (conditionHolds .cc f ↔ f.c = false) ∧
    (conditionHolds .mi f ↔ f.n = true) ∧ (conditionHolds .pl f ↔ f.n = false) ∧
    (conditionHolds .vs f ↔ f.v = true) ∧ (conditionHolds .vc f ↔ f.v = false) ∧
    (conditionHolds .hi f ↔ f.c = true ∧ f.z = false) ∧
    (conditionHolds .ls f ↔ f.c = false ∨ f.z = true) ∧
    (conditionHolds .ge f ↔ f.n = f.v) ∧ (conditionHolds .lt f ↔ f.n ≠ f.v) ∧
    (conditionHolds .gt f ↔ f.z = false ∧ f.n = f.v) ∧
    (conditionHolds .le f ↔ f.z = true ∨ f.n ≠ f.v) ∧ conditionHolds .al f ∧
    (conditionHolds .ne f ↔ ¬ conditionHolds .eq f) ∧ (conditionHolds .cc f ↔ ¬ conditionHolds .cs f) ∧
    (conditionHolds .pl f ↔ ¬ conditionHolds .mi f) ∧ (conditionHolds .vc f ↔ ¬ conditionHolds .vs f) ∧
    (conditionHolds .ls f ↔ ¬ conditionHolds .hi f) ∧ (conditionHolds .lt f ↔ ¬ conditionHolds .ge f) ∧
    (conditionHolds .le f ↔ ¬ conditionHolds .gt f)

/-- B: `pc <- pc + offset`, nothing else (R81). -/
def Obligations.BranchJumpsByItsOffset : Prop :=
  ∀ (s : State) (imm26 : BitVec 26), ∃ t, exec (.b imm26) s = .next t ∧
    JumpsBy s t imm26.toInt ∧ BranchFrame s t fun _ => False

/-- B.cond: the branch when its condition holds, else `pc + 4`; nothing else (R82). -/
def Obligations.ConditionalBranchJumpsIffItsConditionHolds : Prop :=
  ∀ (s : State) (c : Cond) (imm19 : BitVec 19), ∃ t, exec (.bCond c imm19) s = .next t ∧
    (conditionHolds c s.flags = true → JumpsBy s t imm19.toInt) ∧
    (conditionHolds c s.flags = false → JumpsBy s t 1) ∧ BranchFrame s t fun _ => False

/-- BR: `pc <- X[n]`, nothing else (R83). -/
def Obligations.BranchRegisterJumpsToTheRegister : Prop :=
  ∀ (s : State) (n : Reg), ∃ t, exec (.br n) s = .next t ∧ t.pc = s.x n ∧
    BranchFrame s t fun _ => False

/-- BL: `X[30] <- pc + 4`, then the branch; nothing else (R84). -/
def Obligations.BranchLinkSavesTheReturnAddress : Prop :=
  ∀ (s : State) (imm26 : BitVec 26), ∃ t, exec (.bl imm26) s = .next t ∧
    JumpsBy s t imm26.toInt ∧ t.x 30 = s.pc + 4#64 ∧ BranchFrame s t fun r => r = 30

/-- BLR: the target is the old `X[n]`, also for `n = 30`; `X[30] <- pc + 4`; nothing else (R85). -/
def Obligations.BranchLinkRegisterJumpsToTheOldRegister : Prop :=
  ∀ (s : State) (n : Reg), ∃ t, exec (.blr n) s = .next t ∧
    t.pc = s.x n ∧ t.x 30 = s.pc + 4#64 ∧ BranchFrame s t fun r => r = 30

/-! ### Compare -/

/-- CMP (register) and CMP (immediate): the flags of `R[n] - R[m]` and of `R[n] - imm12`, no register written
(R90, R91). -/
def Obligations.ComparesSetTheFlagsOfTheDifference : Prop :=
  ∀ (s : State) (w : Width) (n m : Reg) (imm12 : BitVec 12),
    (∃ t, exec (.cmpReg w n m) s = .next t ∧ WritesFlags s t (DiffFlags w (uint s w n) (uint s w m))) ∧
    (∃ t, exec (.cmpImm w n imm12) s = .next t ∧ WritesFlags s t (DiffFlags w (uint s w n) imm12.toNat))

/-- After CMP the condition names mean what they say of the two operands (R95's consistency with R80). -/
def Obligations.ConditionsAfterCompareReadAsTheirNames : Prop :=
  ∀ (s : State) (w : Width) (n m : Reg), ∃ t, exec (.cmpReg w n m) s = .next t ∧
    (conditionHolds .eq t.flags ↔ uint s w n = uint s w m) ∧
    (conditionHolds .hi t.flags ↔ uint s w m < uint s w n) ∧
    (conditionHolds .ls t.flags ↔ uint s w n ≤ uint s w m) ∧
    (conditionHolds .cs t.flags ↔ uint s w m ≤ uint s w n) ∧
    (conditionHolds .ge t.flags ↔ sint s w m ≤ sint s w n) ∧
    (conditionHolds .lt t.flags ↔ sint s w n < sint s w m) ∧
    (conditionHolds .gt t.flags ↔ sint s w m < sint s w n) ∧
    (conditionHolds .le t.flags ↔ sint s w n ≤ sint s w m)

/-- CMP and SUBS of the same operands and width write identical flags (R92). -/
def Obligations.CompareAndSubtractSetTheSameFlags : Prop :=
  ∀ (s : State) (w : Width) (d n m : Reg) (imm12 : BitVec 12),
    (∃ t u, exec (.cmpReg w n m) s = .next t ∧ exec (.subsReg w d n m) s = .next u ∧
      t.flags = u.flags ∧ ∀ r, r ≠ d → t.x r = u.x r) ∧
    (∃ t u, exec (.cmpImm w n imm12) s = .next t ∧ exec (.subsImm w d n imm12) s = .next u ∧
      t.flags = u.flags ∧ ∀ r, r ≠ d → t.x r = u.x r)

/-! ### Add and subtract -/

/-- `AddWithCarry_N` (R95): the result and the four flags from the exact sums. -/
def Obligations.AdderComputesTheResultAndFlags : Prop :=
  ∀ (w : Width) (x y : BitVec w.bits) (cin : Bool),
    (addWithCarry x y cin).1.toNat = (x.toNat + y.toNat + cin.toNat) % 2 ^ w.bits ∧
      SumFlags w (x.toNat + y.toNat + cin.toNat)
        (sintOf w x.toNat + sintOf w y.toNat + cin.toNat) (addWithCarry x y cin).2

/-- ADD and SUB (immediate): sum and difference modulo `2^N`, the flags unchanged (R97, R99). -/
def Obligations.AddSubImmediateWriteTheirResult : Prop :=
  ∀ (s : State) (w : Width) (d n : Reg) (imm12 : BitVec 12),
    (∃ t, exec (.addImm w d n imm12) s = .next t ∧
      WritesReg s t d ((uint s w n + imm12.toNat) % 2 ^ w.bits)) ∧
    (∃ t, exec (.subImm w d n imm12) s = .next t ∧ WritesReg s t d (diff w (uint s w n) imm12.toNat))

/-- ADDS and SUBS (immediate): the same results, and the flags of the sum and the difference (R98, R100). -/
def Obligations.AddsSubsImmediateWriteResultAndFlags : Prop :=
  ∀ (s : State) (w : Width) (d n : Reg) (imm12 : BitVec 12),
    (∃ t, exec (.addsImm w d n imm12) s = .next t ∧
      WritesRegFlags s t d ((uint s w n + imm12.toNat) % 2 ^ w.bits)
        (SumFlags w (uint s w n + imm12.toNat) (sint s w n + imm12.toNat))) ∧
    (∃ t, exec (.subsImm w d n imm12) s = .next t ∧
      WritesRegFlags s t d (diff w (uint s w n) imm12.toNat)
        (DiffFlags w (uint s w n) imm12.toNat))

/-- ADD and SUB (register): sum and difference modulo `2^N`, the flags unchanged (R101, R103). -/
def Obligations.AddSubRegisterWriteTheirResult : Prop :=
  ∀ (s : State) (w : Width) (d n m : Reg),
    (∃ t, exec (.addReg w d n m) s = .next t ∧
      WritesReg s t d ((uint s w n + uint s w m) % 2 ^ w.bits)) ∧
    (∃ t, exec (.subReg w d n m) s = .next t ∧ WritesReg s t d (diff w (uint s w n) (uint s w m)))

/-- ADDS and SUBS (register): the same results, and the flags of the sum and the difference (R102, R104). -/
def Obligations.AddsSubsRegisterWriteResultAndFlags : Prop :=
  ∀ (s : State) (w : Width) (d n m : Reg),
    (∃ t, exec (.addsReg w d n m) s = .next t ∧
      WritesRegFlags s t d ((uint s w n + uint s w m) % 2 ^ w.bits)
        (SumFlags w (uint s w n + uint s w m) (sint s w n + sint s w m))) ∧
    (∃ t, exec (.subsReg w d n m) s = .next t ∧
      WritesRegFlags s t d (diff w (uint s w n) (uint s w m))
        (DiffFlags w (uint s w n) (uint s w m)))

/-- ADC and SBC: `Rn + Rm + C` and `Rn - Rm - (1 - C)` modulo `2^N`, the flags unchanged (R105, R107). -/
def Obligations.AdcSbcWriteTheirResult : Prop :=
  ∀ (s : State) (w : Width) (d n m : Reg),
    (∃ t, exec (.adc w d n m) s = .next t ∧
      WritesReg s t d ((uint s w n + uint s w m + carry s) % 2 ^ w.bits)) ∧
    (∃ t, exec (.sbc w d n m) s = .next t ∧
      WritesReg s t d ((uint s w n + (2 ^ w.bits - 1 - uint s w m) + carry s) % 2 ^ w.bits))

/-- ADCS and SBCS: the same results, and the flags of the exact sums (R106, R108). -/
def Obligations.AdcsSbcsWriteResultAndFlags : Prop :=
  ∀ (s : State) (w : Width) (d n m : Reg),
    (∃ t, exec (.adcs w d n m) s = .next t ∧
      WritesRegFlags s t d ((uint s w n + uint s w m + carry s) % 2 ^ w.bits)
        (SumFlags w (uint s w n + uint s w m + carry s) (sint s w n + sint s w m + carry s))) ∧
    (∃ t, exec (.sbcs w d n m) s = .next t ∧
      WritesRegFlags s t d ((uint s w n + (2 ^ w.bits - 1 - uint s w m) + carry s) % 2 ^ w.bits)
        (SumFlags w (uint s w n + (2 ^ w.bits - 1 - uint s w m) + carry s)
          (sint s w n - sint s w m - 1 + carry s)))

/-! ### Multiply and divide -/

/-- MUL and MADD: the product, and the sum with it, modulo `2^N`; no flag written (R111, R112). -/
def Obligations.MultiplyWritesTheLowBits : Prop :=
  ∀ (s : State) (w : Width) (d n m a : Reg),
    (∃ t, exec (.mul w d n m) s = .next t ∧
      WritesReg s t d (uint s w n * uint s w m % 2 ^ w.bits)) ∧
    (∃ t, exec (.madd w d n m a) s = .next t ∧
      WritesReg s t d ((uint s w a + uint s w n * uint s w m) % 2 ^ w.bits))

/-- UDIV: the quotient rounded down; no fault and no flag written. A zero divisor writes `DIV_ZERO`: 0 at its
default, else a free `N`-bit value of which nothing is said (R113; log entry 8). -/
def Obligations.UnsignedDivideWritesTheQuotient : Prop :=
  ∀ (s : State) (w : Width) (d n m : Reg), ∃ t, exec (.udiv w d n m) s = .next t ∧
    ∃ q, WritesReg s t d q ∧ q < 2 ^ w.bits ∧ (uint s w m ≠ 0 → q = uint s w n / uint s w m) ∧
      (uint s w m = 0 → s.launch.divZero = .zero → q = 0)

/-- SDIV: the quotient rounded toward zero, modulo `2^N`, so that the overflow case wraps; no fault and no
flag written. A zero divisor gives 0 at the default of `DIV_ZERO` (R114). -/
def Obligations.SignedDivideWritesTheTruncatedQuotient : Prop :=
  ∀ (s : State) (w : Width) (d n m : Reg), ∃ t, exec (.sdiv w d n m) s = .next t ∧
    ∃ q : Nat, WritesReg s t d q ∧ q < 2 ^ w.bits ∧
      (sint s w m ≠ 0 →
        (sint s w n = -2 ^ (w.bits - 1) ∧ sint s w m = -1 → s.launch.divOverflow = .wrap) →
        (q : Int) = (sint s w n).tdiv (sint s w m) % 2 ^ w.bits) ∧
      (sint s w m = 0 → s.launch.divZero = .zero → q = 0)

/-! ### Logical, shifts, moves -/

/-- AND, ORR, ORN, EOR, EON, bit by bit: bits 63:N clear, the flags unchanged (R121, R123 to R126). -/
def Obligations.LogicalInstructionsWorkBitByBit : Prop :=
  ∀ (s : State) (w : Width) (d n m : Reg),
    (∃ t, exec (.and w d n m) s = .next t ∧ t.flags = s.flags ∧ Frame s t d ∧
      ∀ k, (t.x d).getLsbD k = (decide (k < w.bits) && ((s.x n).getLsbD k && (s.x m).getLsbD k))) ∧
    (∃ t, exec (.orr w d n m) s = .next t ∧ t.flags = s.flags ∧ Frame s t d ∧
      ∀ k, (t.x d).getLsbD k = (decide (k < w.bits) && ((s.x n).getLsbD k || (s.x m).getLsbD k))) ∧
    (∃ t, exec (.orn w d n m) s = .next t ∧ t.flags = s.flags ∧ Frame s t d ∧
      ∀ k, (t.x d).getLsbD k = (decide (k < w.bits) && ((s.x n).getLsbD k || !(s.x m).getLsbD k))) ∧
    (∃ t, exec (.eor w d n m) s = .next t ∧ t.flags = s.flags ∧ Frame s t d ∧
      ∀ k, (t.x d).getLsbD k = (decide (k < w.bits) && ((s.x n).getLsbD k ^^ (s.x m).getLsbD k))) ∧
    (∃ t, exec (.eon w d n m) s = .next t ∧ t.flags = s.flags ∧ Frame s t d ∧
      ∀ k, (t.x d).getLsbD k = (decide (k < w.bits) && ((s.x n).getLsbD k ^^ !(s.x m).getLsbD k)))

/-- ANDS: the result of AND; N its top bit, Z whether it is zero, C and V clear (R120, R122). -/
def Obligations.AndsSetsNegativeAndZeroAndClearsCarryAndOverflow : Prop :=
  ∀ (s : State) (w : Width) (d n m : Reg), ∃ t, exec (.ands w d n m) s = .next t ∧ Frame s t d ∧
    (∀ k, (t.x d).getLsbD k = (decide (k < w.bits) && ((s.x n).getLsbD k && (s.x m).getLsbD k))) ∧
    t.flags.n = (t.x d).getLsbD (w.bits - 1) ∧ (t.flags.z = true ↔ t.x d = 0#64) ∧
    t.flags.c = false ∧ t.flags.v = false

/-- LSL and LSR (immediate) by an amount in range: zeros shifted in, the flags unchanged (R128, R130). -/
def Obligations.ImmediateShiftsMoveTheBits : Prop :=
  ∀ (s : State) (w : Width) (d n : Reg) (shift : BitVec 6), shift.toNat < w.bits →
    (∃ t, exec (.lslImm w d n shift) s = .next t ∧
      WritesReg s t d (uint s w n * 2 ^ shift.toNat % 2 ^ w.bits)) ∧
    (∃ t, exec (.lsrImm w d n shift) s = .next t ∧
      WritesReg s t d (uint s w n / 2 ^ shift.toNat))

/-- LSL and LSR (register): the amount modulo `N`, or under `saturate` 0 for every amount of at least `N`;
zeros shifted in, the flags unchanged (R127, R129, R131). -/
def Obligations.RegisterShiftsMoveTheBits : Prop :=
  ∀ (s : State) (w : Width) (d n m : Reg),
    (∃ t, exec (.lslReg w d n m) s = .next t ∧ WritesReg s t d
      (if s.launch.shiftRegAmount = .saturate ∧ w.bits ≤ uint s w m then 0
       else uint s w n * 2 ^ (uint s w m % w.bits) % 2 ^ w.bits)) ∧
    (∃ t, exec (.lsrReg w d n m) s = .next t ∧ WritesReg s t d
      (if s.launch.shiftRegAmount = .saturate ∧ w.bits ≤ uint s w m then 0
       else uint s w n / 2 ^ (uint s w m % w.bits)))

/-- `LSL #0` and `LSR #0` have one word and one effect: `R[d] <- R[n]` (R69). -/
def Obligations.ShiftsByZeroAreOneInstruction : Prop :=
  ∀ (s : State) (w : Width) (d n : Reg),
    encode (.lslImm w d n 0#6) = encode (.lsrImm w d n 0#6) ∧
      exec (.lslImm w d n 0#6) s = exec (.lsrImm w d n 0#6) s ∧
      ∃ t, exec (.lsrImm w d n 0#6) s = .next t ∧ WritesReg s t d (uint s w n)

/-- MOV (register) copies `R[m]`, its 32-bit form clearing bits 63:32; MOV (immediate) leaves
`X[d] = zext_64(imm16)`; the flags unchanged (R150, R151). -/
def Obligations.MovesWriteTheirSource : Prop :=
  ∀ (s : State) (w : Width) (d m : Reg) (imm16 : BitVec 16),
    (∃ t, exec (.movReg w d m) s = .next t ∧ WritesReg s t d (uint s w m)) ∧
    (∃ t, exec (.movImm d imm16) s = .next t ∧ WritesReg s t d imm16.toNat)

/-! ### Loads and stores -/

/-- The address of a load or store: the whole of `X[n]` plus the scaled unsigned offset, modulo `2^64`
(R140). -/
def Obligations.AccessAddressIsBasePlusScaledOffset : Prop :=
  ∀ (s : State) (n : Reg) (imm12 : BitVec 12) (sz : Nat), sz ∈ [1, 2, 4, 8] →
    (accessAddress s n imm12 sz).toNat = ((s.x n).toNat + imm12.toNat * sz) % 2 ^ 64

/-- LDR from an accessible address: byte `k` of the register is the byte of memory in its place, the bits
above the width are clear; no other register, no flag, no byte of memory changes (R141, R32, R34). -/
def Obligations.LoadReadsTheBytesAtItsAddress : Prop :=
  ∀ (s : State) (w : Width) (rt n : Reg) (imm12 : BitVec 12),
    Accessible s (accessAddress s n imm12 w.bytes) w.bytes →
    ∃ t, exec (.ldr w rt n imm12) s = .next t ∧ t.flags = s.flags ∧ Frame s t rt ∧
      (t.x rt).toNat < 2 ^ w.bits ∧
      ∀ k < w.bytes,
        s.byteAt (accessAddress s n imm12 w.bytes + BitVec.ofNat 64 (place s w.bytes k)) =
          some ((t.x rt).extractLsb' (8 * k) 8)

/-- STR to an accessible address stores `R[t]` and changes nothing else (R142, R32, R35). -/
def Obligations.StoreWritesTheRegisterAtItsAddress : Prop :=
  ∀ (s : State) (w : Width) (rt n : Reg) (imm12 : BitVec 12), s.mem.wf →
    Accessible s (accessAddress s n imm12 w.bytes) w.bytes →
    ∃ t, exec (.str w rt n imm12) s = .next t ∧
      Stores s t (accessAddress s n imm12 w.bytes) w.bytes (s.x rt)

/-- STRB to a mapped address stores `W[t][7:0]`, STRH to an accessible address `W[t][15:0]`; neither changes
anything else (R143, R144, R32, R35). -/
def Obligations.NarrowStoresWriteTheLowBytes : Prop :=
  ∀ (s : State) (rt n : Reg) (imm12 : BitVec 12), s.mem.wf →
    (s.launch.dataMapped (accessAddress s n imm12 1) = true →
      ∃ t, exec (.strb rt n imm12) s = .next t ∧ Stores s t (accessAddress s n imm12 1) 1 (s.x rt)) ∧
    (Accessible s (accessAddress s n imm12 2) 2 →
      ∃ t, exec (.strh rt n imm12) s = .next t ∧ Stores s t (accessAddress s n imm12 2) 2 (s.x rt))

/-- A load or store whose access is not aligned while `STRICT_ALIGN` is an AlignmentFault, else one with a
byte that is not mapped data memory is a DataAbort; both record the address (R164, R140). STRB is always
aligned. -/
def Obligations.FaultingAccessesStop : Prop :=
  ∀ (s : State) (i : Instr) (sz : Nat) (a : Addr), accessOf s i = some (sz, a) →
    (s.launch.strictAlign = true → a.toNat % sz ≠ 0 → exec i s = .fault (.alignmentFault a)) ∧
    ((s.launch.strictAlign = true → a.toNat % sz = 0) →
      (∃ k < sz, s.launch.dataMapped (a + BitVec.ofNat 64 k) = false) →
      exec i s = .fault (.dataAbort a)) ∧
    (∀ rt n imm12, i = .strb rt n imm12 → a.toNat % sz = 0)

/-- What STR stores, LDR of the same width at the same address reads back, under either byte order, in any
register, also when an unrelated instruction's worth of registers has changed in between (R32, R42). -/
def Obligations.LoadAfterStoreReadsTheStoredValue : Prop :=
  ∀ (s t u : State) (w : Width) (rt n rd n' : Reg) (imm12 imm12' : BitVec 12), s.mem.wf →
    exec (.str w rt n imm12) s = .next t →
    u.mem = t.mem → u.launch = t.launch →
    accessAddress u n' imm12' w.bytes = accessAddress s n imm12 w.bytes →
    ∃ v, exec (.ldr w rd n' imm12') u = .next v ∧ v.x rd = BitVec.ofNat 64 (uint s w rt)
end

