-- ==== Sys2Proof/Laws/Decode.lean ====
section
/-! SUPPORT. Bit fields as arithmetic: a field of a word is a quotient and a remainder (00_scope.md R6),
and the bytes of a word spell it (20_memory.md R33). -/

namespace Sys2Proof

/-- A field is a quotient and a remainder. -/
theorem field_toNat (I : InstrWord) (lo len : Nat) : (field I lo len).toNat = I.toNat / 2 ^ lo % 2 ^ len := by
  rw [field, BitVec.extractLsb'_toNat, Nat.shiftRight_eq_div_pow]

/-- The same for a word given as a number below `2^32`. -/
theorem field_ofNat_toNat {k : Nat} (hk : k < 2 ^ 32) (lo len : Nat) :
    (field (BitVec.ofNat 32 k) lo len).toNat = k / 2 ^ lo % 2 ^ len := by
  rw [field_toNat, BitVec.toNat_ofNat, Nat.mod_eq_of_lt hk]

/-- A field test as an equation of numbers. -/
theorem field_beq_iff {k : Nat} (hk : k < 2 ^ 32) (lo len : Nat) (v : BitVec len) :
    (field (BitVec.ofNat 32 k) lo len == v) = true ↔ k / 2 ^ lo % 2 ^ len = v.toNat := by
  rw [beq_iff_eq, ← field_ofNat_toNat hk lo len]
  exact ⟨fun h => h ▸ rfl, BitVec.eq_of_toNat_eq⟩

/-- A field holds what its number says. -/
theorem field_eq_ofNat {k : Nat} (hk : k < 2 ^ 32) (lo len : Nat) :
    field (BitVec.ofNat 32 k) lo len = BitVec.ofNat len (k / 2 ^ lo) :=
  BitVec.eq_of_toNat_eq (by rw [field_ofNat_toNat hk, BitVec.toNat_ofNat])

/-- Two fields of one word agree when their numbers do. -/
theorem field_beq_field_iff {k : Nat} (hk : k < 2 ^ 32) (lo lo' len : Nat) :
    (field (BitVec.ofNat 32 k) lo len == field (BitVec.ofNat 32 k) lo' len) = true ↔
      k / 2 ^ lo % 2 ^ len = k / 2 ^ lo' % 2 ^ len := by
  rw [beq_iff_eq, ← field_ofNat_toNat hk lo len, ← field_ofNat_toNat hk lo' len]
  exact ⟨fun h => h ▸ rfl, BitVec.eq_of_toNat_eq⟩

/-- A register field below 31 is the register of that number (R71). -/
theorem reg?_eq_some {I : InstrWord} {lo : Nat} {r : Reg} (h : (field I lo 5).toNat = r.val) :
    reg? I lo = some r := by
  have hr := r.isLt
  rw [reg?, dif_pos (by omega)]
  exact congrArg some (Fin.ext h)

/-- A register field of 31 names no register (R71). -/
theorem reg?_eq_none_iff {I : InstrWord} {lo : Nat} : reg? I lo = none ↔ field I lo 5 = 31#5 := by
  have h := (field I lo 5).isLt
  unfold reg?
  split
  · rename_i hlt
    constructor
    · intro e; cases e
    · intro e; rw [e] at hlt; exact absurd hlt (by decide)
  · exact ⟨fun _ => BitVec.eq_of_toNat_eq (by simp only [BitVec.toNat_ofNat]; omega), fun _ => rfl⟩

theorem Width.code_lt (w : Width) : w.code < 2 := by cases w <;> decide

/-- A field one bit wide that holds the width's code reads as the width (R9). -/
theorem widthAt_eq {I : InstrWord} {i : Nat} {w : Width} (h : (field I i 1).toNat = w.code) :
    widthAt I i = w := by
  have hb : bit I i = decide (w.code = 1) := by
    unfold bit
    rw [← h, Bool.eq_iff_iff, beq_iff_eq, decide_eq_true_eq]
    exact ⟨fun e => by rw [e]; rfl, fun e => BitVec.eq_of_toNat_eq e⟩
  cases w <;> simp [widthAt, hb, Width.code]

theorem Cond.code_lt (c : Cond) : c.code < 15 := by cases c <;> decide

/-- The condition of its own code (R80). -/
theorem condOf_code (p : Cond1111) (c : Cond) (v : BitVec 4) (h : v.toNat = c.code) : condOf p v = some c := by
  unfold condOf
  rw [h]
  cases c <;> rfl

end Sys2Proof
end

