-- ==== Sys2Proof/Laws/State.lean ====
section
/-! SUPPORT. One lemma per field per update of the state, and the register read-after-write laws. -/

namespace Sys2Proof.Machine

section Updates
variable (s : State) (r : Reg) (v : Word64) (t : Addr) (f : Flags) (m : Memory)

@[simp] theorem State.setX_pc : (s.setX r v).pc = s.pc := rfl
@[simp] theorem State.setX_flags : (s.setX r v).flags = s.flags := rfl
@[simp] theorem State.setX_mem : (s.setX r v).mem = s.mem := rfl
@[simp] theorem State.setX_launch : (s.setX r v).launch = s.launch := rfl

@[simp] theorem State.setPc_x : (s.setPc t).x r = s.x r := rfl
@[simp] theorem State.setPc_pc : (s.setPc t).pc = t := rfl
@[simp] theorem State.setPc_flags : (s.setPc t).flags = s.flags := rfl
@[simp] theorem State.setPc_mem : (s.setPc t).mem = s.mem := rfl
@[simp] theorem State.setPc_launch : (s.setPc t).launch = s.launch := rfl

@[simp] theorem State.advance_x : s.advance.x r = s.x r := rfl
@[simp] theorem State.advance_pc : s.advance.pc = s.pc + 4#64 := rfl
@[simp] theorem State.advance_flags : s.advance.flags = s.flags := rfl
@[simp] theorem State.advance_mem : s.advance.mem = s.mem := rfl
@[simp] theorem State.advance_launch : s.advance.launch = s.launch := rfl

@[simp] theorem State.setFlags_x : (s.setFlags f).x r = s.x r := rfl
@[simp] theorem State.setFlags_pc : (s.setFlags f).pc = s.pc := rfl
@[simp] theorem State.setFlags_flags : (s.setFlags f).flags = f := rfl
@[simp] theorem State.setFlags_mem : (s.setFlags f).mem = s.mem := rfl
@[simp] theorem State.setFlags_launch : (s.setFlags f).launch = s.launch := rfl

@[simp] theorem State.setMem_x : (s.setMem m).x r = s.x r := rfl
@[simp] theorem State.setMem_pc : (s.setMem m).pc = s.pc := rfl
@[simp] theorem State.setMem_flags : (s.setMem m).flags = s.flags := rfl
@[simp] theorem State.setMem_mem : (s.setMem m).mem = m := rfl
@[simp] theorem State.setMem_launch : (s.setMem m).launch = s.launch := rfl

end Updates

section WriteReg
variable (s : State) (w : Width) (r : Reg) (v : BitVec w.bits)

@[simp] theorem State.writeReg_pc : (s.writeReg w r v).pc = s.pc := rfl
@[simp] theorem State.writeReg_flags : (s.writeReg w r v).flags = s.flags := rfl
@[simp] theorem State.writeReg_mem : (s.writeReg w r v).mem = s.mem := rfl
@[simp] theorem State.writeReg_launch : (s.writeReg w r v).launch = s.launch := rfl

end WriteReg

@[simp] theorem State.setX_x_same (s : State) (r : Reg) (v : Word64) : (s.setX r v).x r = v := by
  simp [State.setX, State.x]

theorem State.setX_x_other (s : State) {r q : Reg} (v : Word64) (h : q ≠ r) :
    (s.setX r v).x q = s.x q := by
  simp only [State.setX, State.x, Fin.getElem_fin, Vector.getElem_set]
  rw [if_neg]
  intro e
  exact h (Fin.ext e.symm)

/-- A register read after a write of the same register: a `W` write clears bits 63:32 (R12). -/
@[simp] theorem State.writeReg_x_same (s : State) (w : Width) (r : Reg) (v : BitVec w.bits) :
    (s.writeReg w r v).x r = v.setWidth 64 := by
  simp [State.writeReg]

theorem State.writeReg_x_other (s : State) (w : Width) {r q : Reg} (v : BitVec w.bits) (h : q ≠ r) :
    (s.writeReg w r v).x q = s.x q :=
  s.setX_x_other _ h

/-- `uint(R[r])` (R7, R11). -/
theorem State.readReg_toNat (s : State) (w : Width) (r : Reg) :
    (s.readReg w r).toNat = (s.x r).toNat % 2 ^ w.bits := by
  simp [State.readReg]

/-- The byte view depends on memory and the launch alone. -/
theorem State.byteAt_congr {s t : State} (hm : t.mem = s.mem) (hl : t.launch = s.launch) (a : Addr) :
    t.byteAt a = s.byteAt a := by
  simp [State.byteAt, hm, hl]

end Sys2Proof.Machine
end

