-- ==== Sys2Proof/Laws/Memory.lean ====
section
/-! SUPPORT. The laws of memory: read after write, the canonical form, and what `MemRead` and
`MemWrite` can do. -/

namespace Sys2Proof.Machine

/-! ### One byte -/

theorem Memory.read_of_lt {m : Memory} {a : Nat} (h : ∀ c ∈ m, a < c.1) : m.read a = Memory.unlisted := by
  induction m with
  | nil => rfl
  | cons c rest ih =>
    have hc := h c (by simp)
    simp only [Memory.read]
    rw [if_neg (by omega)]
    exact ih fun d hd => h d (by simp [hd])

theorem Memory.read_consByte_same (m : Memory) (a : Nat) (b : Byte) (h : ∀ c ∈ m, a < c.1) :
    (Memory.consByte a b m).read a = b := by
  unfold Memory.consByte
  split
  · rename_i hb; rw [Memory.read_of_lt h, hb]
  · simp [Memory.read]

theorem Memory.read_consByte_other (m : Memory) {a q : Nat} (b : Byte) (h : q ≠ a) :
    (Memory.consByte a b m).read q = m.read q := by
  unfold Memory.consByte
  split
  · rfl
  · simp [Memory.read, Ne.symm h]

/-- A read after a write of the same address gives the byte written. -/
theorem Memory.read_write_same {m : Memory} (hm : m.Pairwise fun p q => p.1 < q.1) (a : Nat) (b : Byte) :
    (m.write a b).read a = b := by
  induction m with
  | nil => exact Memory.read_consByte_same [] a b (by simp)
  | cons c rest ih =>
    obtain ⟨k, e⟩ := c
    rw [List.pairwise_cons] at hm
    unfold Memory.write
    split
    · rename_i h
      refine Memory.read_consByte_same _ a b fun d hd => ?_
      rcases List.mem_cons.1 hd with rfl | hd
      · exact h
      · exact Nat.lt_trans h (hm.1 d hd)
    · split
      · rename_i h
        subst h
        exact Memory.read_consByte_same _ a b hm.1
      · rename_i h
        simp only [Memory.read]
        rw [if_neg (Ne.symm h)]
        exact ih hm.2

/-- A write leaves every other address alone. -/
theorem Memory.read_write_other (m : Memory) {a q : Nat} (b : Byte) (h : q ≠ a) :
    (m.write a b).read q = m.read q := by
  induction m with
  | nil => exact Memory.read_consByte_other [] b h
  | cons c rest ih =>
    obtain ⟨k, e⟩ := c
    unfold Memory.write
    split
    · exact Memory.read_consByte_other _ b h
    · split
      · rename_i hk
        subst hk
        rw [Memory.read_consByte_other _ b h]
        simp [Memory.read, Ne.symm h]
      · simp [Memory.read, ih]

theorem Memory.mem_consByte {a : Nat} {b : Byte} {m : Memory} {c : Host.Cell}
    (h : c ∈ Memory.consByte a b m) : (c = (a, b) ∧ b ≠ Memory.unlisted) ∨ c ∈ m := by
  unfold Memory.consByte at h
  split at h
  · exact .inr h
  · rcases List.mem_cons.1 h with h | h
    · exact .inl ⟨h, ‹_›⟩
    · exact .inr h

/-- The entries of a memory after a write: the byte written, unless it is not listed, and old entries. -/
theorem Memory.mem_write {m : Memory} {a : Nat} {b : Byte} {c : Host.Cell}
    (h : c ∈ m.write a b) : (c = (a, b) ∧ b ≠ Memory.unlisted) ∨ c ∈ m := by
  induction m with
  | nil => exact Memory.mem_consByte h
  | cons d rest ih =>
    obtain ⟨k, e⟩ := d
    unfold Memory.write at h
    split at h
    · exact Memory.mem_consByte h
    · split at h
      · rcases Memory.mem_consByte h with h | h
        · exact .inl h
        · exact .inr (List.mem_cons_of_mem _ h)
      · rcases List.mem_cons.1 h with h | h
        · exact .inr (h ▸ List.mem_cons_self)
        · exact (ih h).imp_right (List.mem_cons_of_mem _)

theorem Memory.pairwise_consByte {a : Nat} {b : Byte} {m : Memory}
    (hm : m.Pairwise fun p q => p.1 < q.1) (h : ∀ c ∈ m, a < c.1) :
    (Memory.consByte a b m).Pairwise fun p q => p.1 < q.1 := by
  unfold Memory.consByte
  split
  · exact hm
  · exact List.pairwise_cons.2 ⟨h, hm⟩

theorem Memory.pairwise_write {m : Memory} (hm : m.Pairwise fun p q => p.1 < q.1) (a : Nat) (b : Byte) :
    (m.write a b).Pairwise fun p q => p.1 < q.1 := by
  induction m with
  | nil => exact Memory.pairwise_consByte hm (by simp)
  | cons d rest ih =>
    obtain ⟨k, e⟩ := d
    have hm' := List.pairwise_cons.1 hm
    unfold Memory.write
    split
    · rename_i h
      refine Memory.pairwise_consByte hm fun c hc => ?_
      rcases List.mem_cons.1 hc with rfl | hc
      · exact h
      · exact Nat.lt_trans h (hm'.1 c hc)
    · split
      · rename_i h
        subst h
        exact Memory.pairwise_consByte hm'.2 hm'.1
      · refine List.pairwise_cons.2 ⟨fun c hc => ?_, ih hm'.2⟩
        rcases Memory.mem_write hc with ⟨rfl, -⟩ | hc
        · simp only; omega
        · exact hm'.1 c hc

/-- A write keeps the canonical form. -/
theorem Memory.wf_write {m : Memory} (hm : m.wf) {a : Nat} (ha : a < 2 ^ 64) (b : Byte) :
    (m.write a b).wf := by
  refine ⟨Memory.pairwise_write hm.1 a b, fun c hc => ?_⟩
  rcases Memory.mem_write hc with ⟨rfl, hb⟩ | hc
  · exact ⟨ha, hb⟩
  · exact hm.2 c hc

/-- A listed address reads as its entry. -/
theorem Memory.read_of_mem {m : Memory} (hm : m.Pairwise fun p q => p.1 < q.1) {c : Host.Cell}
    (hc : c ∈ m) : m.read c.1 = c.2 := by
  induction m with
  | nil => cases hc
  | cons d rest ih =>
    have hm' := List.pairwise_cons.1 hm
    rcases List.mem_cons.1 hc with rfl | hc
    · simp [Memory.read]
    · have := hm'.1 c hc
      simp only [Memory.read]
      rw [if_neg (by omega)]
      exact ih hm'.2 hc

/-- The form is canonical: memories that read alike are equal data. -/
theorem Memory.eq_of_read_eq {m₁ m₂ : Memory} (h₁ : m₁.wf) (h₂ : m₂.wf)
    (h : ∀ a, m₁.read a = m₂.read a) : m₁ = m₂ := by
  induction m₁ generalizing m₂ with
  | nil =>
    cases m₂ with
    | nil => rfl
    | cons d rest =>
      have := h d.1
      rw [Memory.read_of_mem h₂.1 List.mem_cons_self] at this
      exact absurd this.symm (h₂.2 d List.mem_cons_self).2
  | cons c rest ih =>
    cases m₂ with
    | nil =>
      have := h c.1
      rw [Memory.read_of_mem h₁.1 List.mem_cons_self] at this
      exact absurd this (h₁.2 c List.mem_cons_self).2
    | cons d rest' =>
      have p₁ := List.pairwise_cons.1 h₁.1
      have p₂ := List.pairwise_cons.1 h₂.1
      have hc := h c.1
      have hd := h d.1
      rw [Memory.read_of_mem h₁.1 List.mem_cons_self] at hc
      rw [Memory.read_of_mem h₂.1 List.mem_cons_self] at hd
      have key : c.1 = d.1 := by
        rcases Nat.lt_trichotomy c.1 d.1 with hlt | heq | hlt
        · refine absurd (hc.trans (Memory.read_of_lt fun e he => ?_)) (h₁.2 c List.mem_cons_self).2
          rcases List.mem_cons.1 he with rfl | he
          · exact hlt
          · exact Nat.lt_trans hlt (p₂.1 e he)
        · exact heq
        · refine absurd (hd.symm.trans (Memory.read_of_lt fun e he => ?_)) (h₂.2 d List.mem_cons_self).2
          rcases List.mem_cons.1 he with rfl | he
          · exact hlt
          · exact Nat.lt_trans hlt (p₁.1 e he)
      have hcd : c = d := by
        refine Prod.ext key ?_
        rw [hc, key, Memory.read_of_mem h₂.1 List.mem_cons_self]
      subst hcd
      congr 1
      refine ih ⟨p₁.2, fun e he => h₁.2 e (List.mem_cons_of_mem _ he)⟩
        ⟨p₂.2, fun e he => h₂.2 e (List.mem_cons_of_mem _ he)⟩ fun a => ?_
      by_cases ha : c.1 = a
      · subst ha
        rw [Memory.read_of_lt p₁.1, Memory.read_of_lt p₂.1]
      · have := h a
        simpa [Memory.read, ha] using this

/-! ### Several bytes -/

theorem byteAddr_zero (addr : Addr) : byteAddr addr 0 = addr := by simp [byteAddr]

theorem byteAddr_succ (addr : Addr) (k : Nat) : byteAddr addr (k + 1) = byteAddr (addr + 1#64) k := by
  unfold byteAddr
  apply BitVec.eq_of_toNat_eq
  simp only [BitVec.toNat_add, BitVec.toNat_ofNat]
  omega

/-- Two bytes of one access of at most 2^64 bytes have different addresses. -/
theorem byteAddr_inj {addr : Addr} {j k : Nat} (hj : j < 2 ^ 64) (hk : k < 2 ^ 64)
    (h : byteAddr addr j = byteAddr addr k) : j = k := by
  have := congrArg BitVec.toNat h
  simp only [byteAddr, BitVec.toNat_add, BitVec.toNat_ofNat] at this
  have := addr.isLt
  omega

@[simp] theorem Memory.readBytes_length (m : Memory) (addr : Addr) (n : Nat) :
    (m.readBytes addr n).length = n := by
  induction n generalizing addr with
  | zero => rfl
  | succ n ih => simp [Memory.readBytes, ih]

/-- Byte `k` of a read is the byte at `(addr + k) mod 2^64` (R34). -/
theorem Memory.readBytes_getElem? (m : Memory) (addr : Addr) (n k : Nat) (h : k < n) :
    (m.readBytes addr n)[k]? = some (m.read (byteAddr addr k).toNat) := by
  induction n generalizing addr k with
  | zero => omega
  | succ n ih =>
    cases k with
    | zero => simp [Memory.readBytes, byteAddr_zero]
    | succ k =>
      simp only [Memory.readBytes, List.getElem?_cons_succ, byteAddr_succ]
      exact ih _ _ (by omega)

/-- A store leaves every byte outside its own alone (R35). -/
theorem Memory.read_writeBytes_other (m : Memory) (addr : Addr) (bytes : List Byte) (q : Nat)
    (h : ∀ k < bytes.length, (byteAddr addr k).toNat ≠ q) :
    (m.writeBytes addr bytes).read q = m.read q := by
  induction bytes generalizing m addr with
  | nil => rfl
  | cons b rest ih =>
    simp only [Memory.writeBytes]
    rw [ih]
    · refine Memory.read_write_other m b ?_
      have := h 0 (by simp)
      rw [byteAddr_zero] at this
      exact Ne.symm this
    · intro k hk
      have := h (k + 1) (by simpa using hk)
      rwa [byteAddr_succ] at this

/-- A store's byte `k` stands at `(addr + k) mod 2^64` (R35). -/
theorem Memory.read_writeBytes_same {m : Memory} (hm : m.Pairwise fun p q => p.1 < q.1) (addr : Addr)
    (bytes : List Byte) (hlen : bytes.length ≤ 2 ^ 64) (k : Nat) (hk : k < bytes.length) :
    (m.writeBytes addr bytes).read (byteAddr addr k).toNat = bytes[k] := by
  induction bytes generalizing m addr k with
  | nil => simp at hk
  | cons b rest ih =>
    simp only [List.length_cons] at hlen hk
    simp only [Memory.writeBytes]
    cases k with
    | zero =>
      rw [byteAddr_zero, Memory.read_writeBytes_other]
      · exact Memory.read_write_same hm _ _
      · intro j hj e
        rw [← byteAddr_succ] at e
        have e : byteAddr addr (j + 1) = byteAddr addr 0 := by
          rw [byteAddr_zero]; exact BitVec.eq_of_toNat_eq e
        have := byteAddr_inj (by omega) (by omega) e
        omega
    | succ k =>
      rw [byteAddr_succ]
      exact ih (Memory.pairwise_write hm _ _) _ (by omega) k (by omega)

/-- A store keeps the canonical form. -/
theorem Memory.wf_writeBytes {m : Memory} (hm : m.wf) (addr : Addr) (bytes : List Byte) :
    (m.writeBytes addr bytes).wf := by
  induction bytes generalizing m addr with
  | nil => exact hm
  | cons b rest ih => exact ih (Memory.wf_write hm addr.isLt b) _

/-- The entries of a memory after a store: bytes of the access, and old entries. -/
theorem Memory.mem_writeBytes {m : Memory} {addr : Addr} {bytes : List Byte} {c : Host.Cell}
    (h : c ∈ m.writeBytes addr bytes) :
    (∃ k < bytes.length, c.1 = (byteAddr addr k).toNat) ∨ c ∈ m := by
  induction bytes generalizing m addr with
  | nil => exact .inr h
  | cons b rest ih =>
    simp only [Memory.writeBytes] at h
    rcases ih h with ⟨k, hk, hc⟩ | hc
    · exact .inl ⟨k + 1, by simpa using hk, by rw [byteAddr_succ]; exact hc⟩
    · rcases Memory.mem_write hc with ⟨rfl, -⟩ | hc
      · exact .inl ⟨0, by simp, by rw [byteAddr_zero]⟩
      · exact .inr hc

/-! ### Byte order -/

@[simp] theorem littleEndianBytes_length (k v : Nat) : (littleEndianBytes k v).length = k := by
  induction k generalizing v with
  | zero => rfl
  | succ k ih => simp [littleEndianBytes, ih]

@[simp] theorem dataOrder_length (be : Bool) (l : List Byte) : (dataOrder be l).length = l.length := by
  unfold dataOrder; split <;> simp

@[simp] theorem dataOrder_dataOrder (be : Bool) (l : List Byte) : dataOrder be (dataOrder be l) = l := by
  unfold dataOrder; split <;> simp

/-- Byte `i` of a number is its bits `8i+7 : 8i` (R32). -/
theorem littleEndianBytes_getElem (k v i : Nat) (h : i < (littleEndianBytes k v).length) :
    (littleEndianBytes k v)[i] = BitVec.ofNat 8 (v / 256 ^ i) := by
  induction k generalizing v i with
  | zero => simp [littleEndianBytes] at h
  | succ k ih =>
    cases i with
    | zero => simp [littleEndianBytes]
    | succ i =>
      simp only [littleEndianBytes, List.getElem_cons_succ]
      rw [ih, Nat.div_div_eq_div_mul, Nat.pow_succ, Nat.mul_comm]

theorem littleEndian_lt (l : List Byte) : littleEndian l < 256 ^ l.length := by
  induction l with
  | nil => simp [littleEndian]
  | cons b rest ih =>
    have := b.isLt
    simp only [littleEndian, List.length_cons, Nat.pow_succ]
    omega

/-- A number is spelt by its bytes. -/
theorem littleEndian_bytes (k v : Nat) : littleEndian (littleEndianBytes k v) = v % 256 ^ k := by
  induction k generalizing v with
  | zero => simp [littleEndian, littleEndianBytes, Nat.mod_one]
  | succ k ih =>
    rw [Nat.pow_succ, Nat.mul_comm, Nat.mod_mul (x := v) (a := 256) (b := 256 ^ k), ← ih]
    rfl

/-- Bits `8i+7 : 8i` of a number are its byte `i` (R32). -/
theorem littleEndian_div_mod (l : List Byte) (i : Nat) (h : i < l.length) :
    littleEndian l / 256 ^ i % 256 = l[i].toNat := by
  induction l generalizing i with
  | nil => simp at h
  | cons b rest ih =>
    have := b.isLt
    cases i with
    | zero => simp [littleEndian]; omega
    | succ i =>
      simp only [List.getElem_cons_succ]
      rw [← ih i (by simpa using h), Nat.pow_succ, Nat.mul_comm, ← Nat.div_div_eq_div_mul]
      congr 2
      simp only [littleEndian]
      omega

/-! ### MemRead and MemWrite -/

/-- When an access meets no fault: it is aligned where that is required, and every byte is mapped data
memory (R34, R35). -/
theorem accessFault?_eq_none_iff (s : State) (addr : Addr) (n : Nat) :
    accessFault? s addr n = none ↔
      (s.launch.strictAlign = true → addr.toNat % n = 0) ∧
        ∀ k < n, s.launch.dataMapped (byteAddr addr k) = true := by
  unfold accessFault?
  by_cases h : s.launch.strictAlign = true <;> by_cases h' : addr.toNat % n = 0 <;> simp [h, h']

/-- Which fault an access meets (R140, R164, R167). -/
theorem accessFault?_eq_some_iff (s : State) (addr : Addr) (n : Nat) (f : Fault) :
    accessFault? s addr n = some f ↔
      (f = .alignmentFault addr ∧ s.launch.strictAlign = true ∧ addr.toNat % n ≠ 0) ∨
        (f = .dataAbort addr ∧ (s.launch.strictAlign = true → addr.toNat % n = 0) ∧
          ∃ k < n, s.launch.dataMapped (byteAddr addr k) = false) := by
  unfold accessFault?
  have key : ∀ x : Fault, some x = some f ↔ f = x := fun x => by
    rw [Option.some.injEq]; exact eq_comm
  by_cases h : s.launch.strictAlign = true <;> by_cases h' : addr.toNat % n = 0 <;>
    by_cases hk : ∀ k < n, s.launch.dataMapped (byteAddr addr k) = true <;>
    simp_all

/-- Everything a MemRead can do (R34). -/
theorem memRead_eq (s : State) (addr : Addr) (n : Nat) :
    memRead s addr n =
      match accessFault? s addr n with
      | some f => .error f
      | none => .ok (BitVec.ofNat (8 * n)
          (littleEndian (dataOrder s.launch.bigEndian (s.mem.readBytes addr n)))) := rfl

/-- Everything a successful MemWrite does: the memory is written, nothing else (R35). -/
theorem memWrite_ok {s s' : State} {addr : Addr} {n : Nat} {v : BitVec (8 * n)}
    (h : memWrite s addr n v = .ok s') :
    accessFault? s addr n = none ∧
      s' = s.setMem (s.mem.writeBytes addr (dataOrder s.launch.bigEndian (littleEndianBytes n v.toNat))) := by
  unfold memWrite at h
  split at h
  · cases h
  · exact ⟨‹_›, by simpa using h.symm⟩

end Sys2Proof.Machine
end

