-- ==== Sys2Proof/Laws/Exec.lean ====
section
/-! SUPPORT. What an instruction can do, said once: every next state `exec` answers is one of six updates of
the state before. -/

namespace Sys2Proof.Machine

/-! ### How an instruction ends -/

theorem finishReg_next {w : Width} {d : Reg} {v : BitVec w.bits} {s t : State}
    (h : finishReg w d v s = .next t) : t = (s.writeReg w d v).advance := by
  simpa [finishReg] using h.symm

/-- A load that answers a next state met no fault and wrote its register. -/
theorem finishLoad_next {w : Width} {d : Reg} {r : Except Fault (BitVec (8 * w.bytes))} {s t : State}
    (h : finishLoad w d r s = .next t) :
    ∃ v, r = .ok v ∧ t = (s.writeReg w d (v.setWidth w.bits)).advance := by
  unfold finishLoad raise at h
  split at h
  · cases h
  · exact ⟨_, rfl, finishReg_next h⟩

/-- A store that answers a next state met no fault and wrote its bytes. -/
theorem finishStore_next {s t : State} {a : Addr} {n : Nat} {v : BitVec (8 * n)}
    (h : finishStore (memWrite s a n v) = .next t) :
    accessFault? s a n = none ∧
      t = (s.setMem
        (s.mem.writeBytes a (dataOrder s.launch.bigEndian (littleEndianBytes n v.toNat)))).advance := by
  unfold finishStore raise at h
  split at h
  · cases h
  · rename_i e
    obtain ⟨hf, rfl⟩ := memWrite_ok e
    exact ⟨hf, by simpa using h.symm⟩

/-! ### The six updates -/

/-- The updates an instruction can make. -/
inductive Effect (s : State) : State → Prop where
  /-- A register, the flags kept. -/
  | reg (w : Width) (d : Reg) (v : BitVec w.bits) : Effect s (s.writeReg w d v).advance
  /-- A register and the flags. -/
  | regFlags (w : Width) (d : Reg) (v : BitVec w.bits) (f : Flags) :
      Effect s ((s.writeReg w d v).setFlags f).advance
  /-- The flags. -/
  | flags (f : Flags) : Effect s (s.setFlags f).advance
  /-- The bytes of an access that meets no fault. -/
  | store (a : Addr) (n v : Nat) (h : accessFault? s a n = none) :
      Effect s (s.setMem
        (s.mem.writeBytes a (dataOrder s.launch.bigEndian (littleEndianBytes n v)))).advance
  /-- `pc`. -/
  | jump (a : Addr) : Effect s (s.setPc a)
  /-- The link register and `pc`. -/
  | call (v : Word64) (a : Addr) : Effect s ((s.setX Reg.lr v).setPc a)

/-- Everything an instruction can do. -/
theorem exec_effect {i : Instr} {s t : State} (h : exec i s = .next t) : Effect s t := by
  cases i
  case b => cases h; exact .jump _
  case bCond =>
    simp only [exec, execBCond] at h
    split at h <;> cases h <;> exact .jump _
  case br => cases h; exact .jump _
  case bl => cases h; exact .call _ _
  case blr => cases h; exact .call _ _
  case cmpReg => cases h; exact .flags _
  case cmpImm => cases h; exact .flags _
  case ldr => obtain ⟨v, -, rfl⟩ := finishLoad_next h; exact .reg _ _ _
  case str => obtain ⟨hf, rfl⟩ := finishStore_next h; exact .store _ _ _ hf
  case strb => obtain ⟨hf, rfl⟩ := finishStore_next h; exact .store _ _ _ hf
  case strh => obtain ⟨hf, rfl⟩ := finishStore_next h; exact .store _ _ _ hf
  all_goals first
    | (cases h; exact .reg _ _ _)
    | (cases h; exact .regFlags _ _ _ _)

/-- No instruction changes the launch. -/
theorem exec_launch {i : Instr} {s t : State} (h : exec i s = .next t) : t.launch = s.launch := by
  cases exec_effect h <;> rfl

/-! ### Frames of the updates -/

/-- A register write changes no other register. -/
theorem reg_frame (s : State) (w : Width) {d r : Reg} (v : BitVec w.bits) (h : r ≠ d) :
    ((s.writeReg w d v).advance).x r = s.x r := by
  rw [State.advance_x, State.writeReg_x_other _ _ _ h]

/-- A store changes no byte outside its access (R35). -/
theorem store_frame (s : State) (a q : Addr) (n v : Nat) (h : ∀ k < n, q ≠ byteAddr a k) :
    (s.setMem (s.mem.writeBytes a (dataOrder s.launch.bigEndian (littleEndianBytes n v)))).advance.byteAt q =
      s.byteAt q := by
  simp only [State.byteAt, State.advance_launch, State.setMem_launch, State.advance_mem, State.setMem_mem]
  rw [Memory.read_writeBytes_other]
  · rfl
  · intro k hk e
    simp at hk
    exact h k hk (BitVec.eq_of_toNat_eq e.symm)

end Sys2Proof.Machine
end

