-- ==== Sys2Proof/Laws/Flags.lean ====
section
/-! SUPPORT. What the shared adder computes, said once in integers (42_add_sub.md R95). -/

namespace Sys2Proof.Machine

section Adder
variable {N : Nat} (x y : BitVec N) (cin : Bool)

/-- The result is the sum modulo `2^N`. -/
theorem addWithCarry_result : (addWithCarry x y cin).1.toNat = (x.toNat + y.toNat + cin.toNat) % 2 ^ N := by
  simp [addWithCarry]

theorem addWithCarry_n :
    (addWithCarry x y cin).2.n = true ↔ 2 ^ (N - 1) ≤ (x.toNat + y.toNat + cin.toNat) % 2 ^ N := by
  simp only [addWithCarry, BitVec.msb_eq_decide, BitVec.toNat_ofNat, decide_eq_true_eq]

theorem addWithCarry_z :
    (addWithCarry x y cin).2.z = true ↔ (x.toNat + y.toNat + cin.toNat) % 2 ^ N = 0 := by
  simp only [addWithCarry, beq_iff_eq]
  constructor
  · intro h; simpa using congrArg BitVec.toNat h
  · intro h; exact BitVec.eq_of_toNat_eq (by simpa using h)

theorem addWithCarry_c :
    (addWithCarry x y cin).2.c = true ↔ 2 ^ N ≤ x.toNat + y.toNat + cin.toNat := by
  simp [addWithCarry]

theorem two_pow_eq (hN : 0 < N) : (2 : Int) ^ N = 2 * 2 ^ (N - 1) := by
  obtain ⟨k, rfl⟩ := Nat.exists_eq_succ_of_ne_zero hN.ne'
  simp [pow_succ, mul_comm]

/-- V says that the exact signed sum does not fit in `N` bits. -/
theorem addWithCarry_v (hN : 0 < N) :
    (addWithCarry x y cin).2.v = true ↔
      x.toInt + y.toInt + cin.toNat < -2 ^ (N - 1) ∨ (2 : Int) ^ (N - 1) ≤ x.toInt + y.toInt + cin.toNat := by
  have key : (BitVec.ofNat N (x.toNat + y.toNat + cin.toNat)).toInt =
      (x.toInt + y.toInt + cin.toNat).bmod (2 ^ N) := by
    rw [BitVec.toInt_ofNat', BitVec.toInt_eq_toNat_bmod, BitVec.toInt_eq_toNat_bmod,
      Int.add_assoc, Int.bmod_add_bmod, Int.add_left_comm, Int.bmod_add_bmod]
    congr 1
    push_cast
    omega
  have lo := BitVec.le_toInt (BitVec.ofNat N (x.toNat + y.toNat + cin.toNat))
  have hi := BitVec.toInt_lt (x := BitVec.ofNat N (x.toNat + y.toNat + cin.toNat))
  simp only [addWithCarry, bne_iff_ne, ne_eq]
  constructor
  · intro h
    by_contra hc
    apply h
    rw [key]
    apply Int.bmod_eq_of_le_mul_two <;> push_cast <;> rw [two_pow_eq hN] <;> omega
  · omega

end Adder

/-! ### Subtraction: `a + NOT b + 1` -/

section Sub
variable {N : Nat} (a b : BitVec N)

theorem not_toNat : (~~~b).toNat = 2 ^ N - 1 - b.toNat := by simp

theorem not_toInt (hN : 0 < N) : (~~~b).toInt = -1 - b.toInt := by
  have h1 := b.isLt
  have pow := two_pow_eq hN
  have cast : ((2 ^ N : Nat) : Int) = 2 ^ N := by push_cast; rfl
  rw [BitVec.toInt_eq_toNat_cond, BitVec.toInt_eq_toNat_cond, not_toNat]
  split <;> split <;> omega

theorem subFlags_result : (subFlags a b).1.toNat = (a.toNat + 2 ^ N - b.toNat) % 2 ^ N := by
  have := b.isLt
  rw [subFlags, addWithCarry_result, not_toNat]
  congr 1
  simp only [Bool.toNat_true]
  omega

theorem subFlags_n :
    (subFlags a b).2.n = true ↔ 2 ^ (N - 1) ≤ (a.toNat + 2 ^ N - b.toNat) % 2 ^ N := by
  have := b.isLt
  rw [subFlags, addWithCarry_n, not_toNat]
  simp only [Bool.toNat_true]
  rw [show a.toNat + (2 ^ N - 1 - b.toNat) + 1 = a.toNat + 2 ^ N - b.toNat by omega]

theorem subFlags_z : (subFlags a b).2.z = true ↔ a.toNat = b.toNat := by
  have ha := a.isLt
  have hb := b.isLt
  rw [subFlags, addWithCarry_z, not_toNat]
  simp only [Bool.toNat_true]
  by_cases h : b.toNat ≤ a.toNat
  · rw [show a.toNat + (2 ^ N - 1 - b.toNat) + 1 = (a.toNat - b.toNat) + 2 ^ N by omega,
      Nat.add_mod_right, Nat.mod_eq_of_lt (by omega)]
    omega
  · rw [Nat.mod_eq_of_lt (by omega)]
    omega

/-- C after a subtraction says that there is no borrow. -/
theorem subFlags_c : (subFlags a b).2.c = true ↔ b.toNat ≤ a.toNat := by
  have := b.isLt
  rw [subFlags, addWithCarry_c, not_toNat]
  simp only [Bool.toNat_true]
  omega

theorem subFlags_v (hN : 0 < N) :
    (subFlags a b).2.v = true ↔
      a.toInt - b.toInt < -2 ^ (N - 1) ∨ (2 : Int) ^ (N - 1) ≤ a.toInt - b.toInt := by
  rw [subFlags, addWithCarry_v _ _ _ hN, not_toInt b hN]
  simp only [Bool.toNat_true]
  rw [show a.toInt + (-1 - b.toInt) + ((1 : Nat) : Int) = a.toInt - b.toInt by push_cast; omega]

end Sub

end Sys2Proof.Machine
end

