-- ==== Sys2Proof/Laws/Operands.lean ====
section
/-! SUPPORT. Operand assembly in integers: branch offsets and targets (30_encoding.md R73), data-processing
immediates (R74). -/

namespace Sys2Proof.Machine

/-- A branch offset is four times the signed field. -/
theorem branchOffset_toInt {k : Nat} (hk : k + 2 ≤ 64) (imm : BitVec k) :
    (branchOffset imm).toInt = 4 * imm.toInt := by
  unfold branchOffset
  rw [BitVec.toInt_signExtend_of_le hk]
  rcases Nat.eq_zero_or_pos k with rfl | h0
  · simp [BitVec.eq_nil imm]
  have hp := two_pow_eq h0
  have e : (imm ++ 0b00#2).toNat = 4 * imm.toNat := by
    rw [BitVec.toNat_append, ← Nat.shiftLeft_add_eq_or_of_lt (by decide : (0b00#2).toNat < 2 ^ 2)]
    simp [Nat.shiftLeft_eq]
    omega
  have := imm.isLt
  rw [BitVec.toInt_eq_toNat_cond, BitVec.toInt_eq_toNat_cond, e, pow_add]
  split <;> split <;> push_cast <;> omega

/-- A branch target is `pc` plus four times the signed field, modulo `2^64`. -/
theorem branchTarget_toNat (s : State) {k : Nat} (hk : k + 2 ≤ 64) (imm : BitVec k) :
    ((branchTarget s imm).toNat : Int) = (s.pc.toNat + 4 * imm.toInt) % 2 ^ 64 := by
  rw [← branchOffset_toInt hk]
  unfold branchTarget
  generalize branchOffset imm = o
  have := o.isLt
  have := s.pc.isLt
  rw [BitVec.toNat_add, BitVec.toInt_eq_toNat_cond]
  split <;> omega

/-- A data-processing immediate is its number at either width. -/
@[simp] theorem immOperand_toNat (w : Width) (imm12 : BitVec 12) : (immOperand w imm12).toNat = imm12.toNat := by
  have := imm12.isLt
  unfold immOperand
  rw [BitVec.toNat_setWidth]
  cases w <;> exact Nat.mod_eq_of_lt (by simp only [Width.bits]; omega)

/-- It is never negative. -/
@[simp] theorem immOperand_toInt (w : Width) (imm12 : BitVec 12) :
    (immOperand w imm12).toInt = (imm12.toNat : Int) := by
  have := imm12.isLt
  rw [BitVec.toInt_eq_toNat_cond, immOperand_toNat]
  cases w <;> simp only [Width.bits] <;> rw [if_pos (by omega)]

end Sys2Proof.Machine
end

