-- ==== Sys2Proof/Laws/PerInstr.lean ====
section
/-! SUPPORT. Statements made of every instruction, constructor by constructor. Family `RowAccepts`: the word of an
instruction passes the test of its own row of R72 (of R68, R69 for the optional shifts). -/

namespace Sys2Proof.Laws.RowAccepts

/-- The row of R72 an instruction belongs to. -/
def rowOf : Instr → InstrWord → Bool
  | .b _ => rowB
  | .bCond _ _ => rowBCond
  | .br _ => rowBr
  | .bl _ => rowBl
  | .blr _ => rowBlr
  | .cmpReg _ _ _ => rowCmr
  | .cmpImm _ _ _ => rowCmi
  | .addImm _ _ _ _ | .addsImm _ _ _ _ | .subImm _ _ _ _ | .subsImm _ _ _ _ => rowAsi
  | .addReg _ _ _ _ | .addsReg _ _ _ _ | .subReg _ _ _ _ | .subsReg _ _ _ _ => rowAsr
  | .adc _ _ _ _ | .adcs _ _ _ _ | .sbc _ _ _ _ | .sbcs _ _ _ _ => rowAcr
  | .mul _ _ _ _ => rowMul
  | .madd _ _ _ _ _ => rowMadd
  | .udiv _ _ _ _ => rowUdiv
  | .sdiv _ _ _ _ => rowSdiv
  | .and _ _ _ _ | .ands _ _ _ _ | .orr _ _ _ _ | .orn _ _ _ _ | .eor _ _ _ _ | .eon _ _ _ _ => rowLog
  | .lslImm _ _ _ _ | .lsrImm _ _ _ _ => rowShi
  | .lslReg _ _ _ _ => rowLslr
  | .lsrReg _ _ _ _ => rowLsrr
  | .ldr _ _ _ _ => rowLdr
  | .str _ _ _ _ => rowStr
  | .strb _ _ _ => rowStrb
  | .strh _ _ _ => rowStrh
  | .movReg _ _ _ => rowMvr
  | .movImm _ _ => rowMvi

/-- The row accepts the word. -/
def Statement (i : Instr) : Prop :=
  i.wf = true → rowOf i (encode i) = true

theorem b (imm26 : BitVec 26) : Statement (.b imm26) := by
  intro _
  have imm26_lt := imm26.isLt
  simp only [rowOf, encode, rowB]
  exact (field_beq_iff (by omega) _ _ _).2 (by simp only [BitVec.toNat_ofNat]; omega)

theorem bCond (c : Cond) (imm19 : BitVec 19) : Statement (.bCond c imm19) := by
  intro _
  have imm19_lt := imm19.isLt
  have c_lt := c.code_lt
  simp only [rowOf, encode, rowBCond, Bool.and_eq_true]
  exact
    ⟨(field_beq_iff (by omega) _ _ _).2 (by simp only [BitVec.toNat_ofNat]; omega),
      (field_beq_iff (by omega) _ _ _).2 (by simp only [BitVec.toNat_ofNat]; omega)⟩

theorem br (n : Reg) : Statement (.br n) := by
  intro _
  have n_lt := n.isLt
  simp only [rowOf, encode, rowBr, Bool.and_eq_true]
  exact
    ⟨(field_beq_iff (by omega) _ _ _).2 (by simp only [BitVec.toNat_ofNat]; omega),
      (field_beq_iff (by omega) _ _ _).2 (by simp only [BitVec.toNat_ofNat]; omega)⟩

theorem bl (imm26 : BitVec 26) : Statement (.bl imm26) := by
  intro _
  have imm26_lt := imm26.isLt
  simp only [rowOf, encode, rowBl]
  exact (field_beq_iff (by omega) _ _ _).2 (by simp only [BitVec.toNat_ofNat]; omega)

theorem blr (n : Reg) : Statement (.blr n) := by
  intro _
  have n_lt := n.isLt
  simp only [rowOf, encode, rowBlr, Bool.and_eq_true]
  exact
    ⟨(field_beq_iff (by omega) _ _ _).2 (by simp only [BitVec.toNat_ofNat]; omega),
      (field_beq_iff (by omega) _ _ _).2 (by simp only [BitVec.toNat_ofNat]; omega)⟩

theorem cmpReg (w : Width) (n m : Reg) : Statement (.cmpReg w n m) := by
  intro _
  have n_lt := n.isLt
  have m_lt := m.isLt
  cases w <;> simp only [rowOf, encode, rowCmr, Width.code, Bool.and_eq_true]
  all_goals exact
    ⟨⟨(field_beq_iff (by omega) _ _ _).2 (by simp only [BitVec.toNat_ofNat]; omega),
      (field_beq_iff (by omega) _ _ _).2 (by simp only [BitVec.toNat_ofNat]; omega)⟩,
      (field_beq_iff (by omega) _ _ _).2 (by simp only [BitVec.toNat_ofNat]; omega)⟩

theorem cmpImm (w : Width) (n : Reg) (imm12 : BitVec 12) : Statement (.cmpImm w n imm12) := by
  intro _
  have n_lt := n.isLt
  have imm12_lt := imm12.isLt
  cases w <;> simp only [rowOf, encode, rowCmi, encodeImm12, Width.code, Bool.and_eq_true]
  all_goals exact
    ⟨(field_beq_iff (by omega) _ _ _).2 (by simp only [BitVec.toNat_ofNat]; omega),
      (field_beq_iff (by omega) _ _ _).2 (by simp only [BitVec.toNat_ofNat]; omega)⟩

theorem addImm (w : Width) (d n : Reg) (imm12 : BitVec 12) : Statement (.addImm w d n imm12) := by
  intro _
  have d_lt := d.isLt
  have n_lt := n.isLt
  have imm12_lt := imm12.isLt
  cases w <;> simp only [rowOf, encode, rowAsi, encodeImm12, Width.code]
  all_goals exact (field_beq_iff (by omega) _ _ _).2 (by simp only [BitVec.toNat_ofNat]; omega)

theorem addsImm (w : Width) (d n : Reg) (imm12 : BitVec 12) : Statement (.addsImm w d n imm12) := by
  intro _
  have d_lt := d.isLt
  have n_lt := n.isLt
  have imm12_lt := imm12.isLt
  cases w <;> simp only [rowOf, encode, rowAsi, encodeImm12, Width.code]
  all_goals exact (field_beq_iff (by omega) _ _ _).2 (by simp only [BitVec.toNat_ofNat]; omega)

theorem subImm (w : Width) (d n : Reg) (imm12 : BitVec 12) : Statement (.subImm w d n imm12) := by
  intro _
  have d_lt := d.isLt
  have n_lt := n.isLt
  have imm12_lt := imm12.isLt
  cases w <;> simp only [rowOf, encode, rowAsi, encodeImm12, Width.code]
  all_goals exact (field_beq_iff (by omega) _ _ _).2 (by simp only [BitVec.toNat_ofNat]; omega)

theorem subsImm (w : Width) (d n : Reg) (imm12 : BitVec 12) : Statement (.subsImm w d n imm12) := by
  intro _
  have d_lt := d.isLt
  have n_lt := n.isLt
  have imm12_lt := imm12.isLt
  cases w <;> simp only [rowOf, encode, rowAsi, encodeImm12, Width.code]
  all_goals exact (field_beq_iff (by omega) _ _ _).2 (by simp only [BitVec.toNat_ofNat]; omega)

theorem addReg (w : Width) (d n m : Reg) : Statement (.addReg w d n m) := by
  intro _
  have d_lt := d.isLt
  have n_lt := n.isLt
  have m_lt := m.isLt
  cases w <;> simp only [rowOf, encode, rowAsr, encodeDnm, Width.code, Bool.and_eq_true]
  all_goals exact
    ⟨(field_beq_iff (by omega) _ _ _).2 (by simp only [BitVec.toNat_ofNat]; omega),
      (field_beq_iff (by omega) _ _ _).2 (by simp only [BitVec.toNat_ofNat]; omega)⟩

theorem addsReg (w : Width) (d n m : Reg) : Statement (.addsReg w d n m) := by
  intro _
  have d_lt := d.isLt
  have n_lt := n.isLt
  have m_lt := m.isLt
  cases w <;> simp only [rowOf, encode, rowAsr, encodeDnm, Width.code, Bool.and_eq_true]
  all_goals exact
    ⟨(field_beq_iff (by omega) _ _ _).2 (by simp only [BitVec.toNat_ofNat]; omega),
      (field_beq_iff (by omega) _ _ _).2 (by simp only [BitVec.toNat_ofNat]; omega)⟩

theorem subReg (w : Width) (d n m : Reg) : Statement (.subReg w d n m) := by
  intro _
  have d_lt := d.isLt
  have n_lt := n.isLt
  have m_lt := m.isLt
  cases w <;> simp only [rowOf, encode, rowAsr, encodeDnm, Width.code, Bool.and_eq_true]
  all_goals exact
    ⟨(field_beq_iff (by omega) _ _ _).2 (by simp only [BitVec.toNat_ofNat]; omega),
      (field_beq_iff (by omega) _ _ _).2 (by simp only [BitVec.toNat_ofNat]; omega)⟩

theorem subsReg (w : Width) (d n m : Reg) : Statement (.subsReg w d n m) := by
  intro _
  have d_lt := d.isLt
  have n_lt := n.isLt
  have m_lt := m.isLt
  cases w <;> simp only [rowOf, encode, rowAsr, encodeDnm, Width.code, Bool.and_eq_true]
  all_goals exact
    ⟨(field_beq_iff (by omega) _ _ _).2 (by simp only [BitVec.toNat_ofNat]; omega),
      (field_beq_iff (by omega) _ _ _).2 (by simp only [BitVec.toNat_ofNat]; omega)⟩

theorem adc (w : Width) (d n m : Reg) : Statement (.adc w d n m) := by
  intro _
  have d_lt := d.isLt
  have n_lt := n.isLt
  have m_lt := m.isLt
  cases w <;> simp only [rowOf, encode, rowAcr, encodeDnm, Width.code, Bool.and_eq_true]
  all_goals exact
    ⟨(field_beq_iff (by omega) _ _ _).2 (by simp only [BitVec.toNat_ofNat]; omega),
      (field_beq_iff (by omega) _ _ _).2 (by simp only [BitVec.toNat_ofNat]; omega)⟩

theorem adcs (w : Width) (d n m : Reg) : Statement (.adcs w d n m) := by
  intro _
  have d_lt := d.isLt
  have n_lt := n.isLt
  have m_lt := m.isLt
  cases w <;> simp only [rowOf, encode, rowAcr, encodeDnm, Width.code, Bool.and_eq_true]
  all_goals exact
    ⟨(field_beq_iff (by omega) _ _ _).2 (by simp only [BitVec.toNat_ofNat]; omega),
      (field_beq_iff (by omega) _ _ _).2 (by simp only [BitVec.toNat_ofNat]; omega)⟩

theorem sbc (w : Width) (d n m : Reg) : Statement (.sbc w d n m) := by
  intro _
  have d_lt := d.isLt
  have n_lt := n.isLt
  have m_lt := m.isLt
  cases w <;> simp only [rowOf, encode, rowAcr, encodeDnm, Width.code, Bool.and_eq_true]
  all_goals exact
    ⟨(field_beq_iff (by omega) _ _ _).2 (by simp only [BitVec.toNat_ofNat]; omega),
      (field_beq_iff (by omega) _ _ _).2 (by simp only [BitVec.toNat_ofNat]; omega)⟩

theorem sbcs (w : Width) (d n m : Reg) : Statement (.sbcs w d n m) := by
  intro _
  have d_lt := d.isLt
  have n_lt := n.isLt
  have m_lt := m.isLt
  cases w <;> simp only [rowOf, encode, rowAcr, encodeDnm, Width.code, Bool.and_eq_true]
  all_goals exact
    ⟨(field_beq_iff (by omega) _ _ _).2 (by simp only [BitVec.toNat_ofNat]; omega),
      (field_beq_iff (by omega) _ _ _).2 (by simp only [BitVec.toNat_ofNat]; omega)⟩

theorem mul (w : Width) (d n m : Reg) : Statement (.mul w d n m) := by
  intro _
  have d_lt := d.isLt
  have n_lt := n.isLt
  have m_lt := m.isLt
  cases w <;> simp only [rowOf, encode, rowMul, encodeDnm, Width.code, Bool.and_eq_true]
  all_goals exact
    ⟨(field_beq_iff (by omega) _ _ _).2 (by simp only [BitVec.toNat_ofNat]; omega),
      (field_beq_iff (by omega) _ _ _).2 (by simp only [BitVec.toNat_ofNat]; omega)⟩

theorem madd (w : Width) (d n m a : Reg) : Statement (.madd w d n m a) := by
  intro _
  have d_lt := d.isLt
  have n_lt := n.isLt
  have m_lt := m.isLt
  have a_lt := a.isLt
  cases w <;> simp only [rowOf, encode, rowMadd, encodeDnm, Width.code, Bool.and_eq_true]
  all_goals exact
    ⟨(field_beq_iff (by omega) _ _ _).2 (by simp only [BitVec.toNat_ofNat]; omega),
      (field_beq_iff (by omega) _ _ _).2 (by simp only [BitVec.toNat_ofNat]; omega)⟩

theorem udiv (w : Width) (d n m : Reg) : Statement (.udiv w d n m) := by
  intro _
  have d_lt := d.isLt
  have n_lt := n.isLt
  have m_lt := m.isLt
  cases w <;> simp only [rowOf, encode, rowUdiv, encodeDnm, Width.code, Bool.and_eq_true]
  all_goals exact
    ⟨(field_beq_iff (by omega) _ _ _).2 (by simp only [BitVec.toNat_ofNat]; omega),
      (field_beq_iff (by omega) _ _ _).2 (by simp only [BitVec.toNat_ofNat]; omega)⟩

theorem sdiv (w : Width) (d n m : Reg) : Statement (.sdiv w d n m) := by
  intro _
  have d_lt := d.isLt
  have n_lt := n.isLt
  have m_lt := m.isLt
  cases w <;> simp only [rowOf, encode, rowSdiv, encodeDnm, Width.code, Bool.and_eq_true]
  all_goals exact
    ⟨(field_beq_iff (by omega) _ _ _).2 (by simp only [BitVec.toNat_ofNat]; omega),
      (field_beq_iff (by omega) _ _ _).2 (by simp only [BitVec.toNat_ofNat]; omega)⟩

theorem and (w : Width) (d n m : Reg) : Statement (.and w d n m) := by
  intro _
  have d_lt := d.isLt
  have n_lt := n.isLt
  have m_lt := m.isLt
  cases w <;> simp only [rowOf, encode, rowLog, encodeDnm, Width.code, Bool.and_eq_true]
  all_goals exact
    ⟨(field_beq_iff (by omega) _ _ _).2 (by simp only [BitVec.toNat_ofNat]; omega),
      (field_beq_iff (by omega) _ _ _).2 (by simp only [BitVec.toNat_ofNat]; omega)⟩

theorem ands (w : Width) (d n m : Reg) : Statement (.ands w d n m) := by
  intro _
  have d_lt := d.isLt
  have n_lt := n.isLt
  have m_lt := m.isLt
  cases w <;> simp only [rowOf, encode, rowLog, encodeDnm, Width.code, Bool.and_eq_true]
  all_goals exact
    ⟨(field_beq_iff (by omega) _ _ _).2 (by simp only [BitVec.toNat_ofNat]; omega),
      (field_beq_iff (by omega) _ _ _).2 (by simp only [BitVec.toNat_ofNat]; omega)⟩

theorem orr (w : Width) (d n m : Reg) : Statement (.orr w d n m) := by
  intro _
  have d_lt := d.isLt
  have n_lt := n.isLt
  have m_lt := m.isLt
  cases w <;> simp only [rowOf, encode, rowLog, encodeDnm, Width.code, Bool.and_eq_true]
  all_goals exact
    ⟨(field_beq_iff (by omega) _ _ _).2 (by simp only [BitVec.toNat_ofNat]; omega),
      (field_beq_iff (by omega) _ _ _).2 (by simp only [BitVec.toNat_ofNat]; omega)⟩

theorem orn (w : Width) (d n m : Reg) : Statement (.orn w d n m) := by
  intro _
  have d_lt := d.isLt
  have n_lt := n.isLt
  have m_lt := m.isLt
  cases w <;> simp only [rowOf, encode, rowLog, encodeDnm, Width.code, Bool.and_eq_true]
  all_goals exact
    ⟨(field_beq_iff (by omega) _ _ _).2 (by simp only [BitVec.toNat_ofNat]; omega),
      (field_beq_iff (by omega) _ _ _).2 (by simp only [BitVec.toNat_ofNat]; omega)⟩

theorem eor (w : Width) (d n m : Reg) : Statement (.eor w d n m) := by
  intro _
  have d_lt := d.isLt
  have n_lt := n.isLt
  have m_lt := m.isLt
  cases w <;> simp only [rowOf, encode, rowLog, encodeDnm, Width.code, Bool.and_eq_true]
  all_goals exact
    ⟨(field_beq_iff (by omega) _ _ _).2 (by simp only [BitVec.toNat_ofNat]; omega),
      (field_beq_iff (by omega) _ _ _).2 (by simp only [BitVec.toNat_ofNat]; omega)⟩

theorem eon (w : Width) (d n m : Reg) : Statement (.eon w d n m) := by
  intro _
  have d_lt := d.isLt
  have n_lt := n.isLt
  have m_lt := m.isLt
  cases w <;> simp only [rowOf, encode, rowLog, encodeDnm, Width.code, Bool.and_eq_true]
  all_goals exact
    ⟨(field_beq_iff (by omega) _ _ _).2 (by simp only [BitVec.toNat_ofNat]; omega),
      (field_beq_iff (by omega) _ _ _).2 (by simp only [BitVec.toNat_ofNat]; omega)⟩

theorem lslImm (w : Width) (d n : Reg) (shift : BitVec 6) : Statement (.lslImm w d n shift) := by
  intro h
  simp only [Instr.wf, shiftInRange, decide_eq_true_eq] at h
  have d_lt := d.isLt
  have n_lt := n.isLt
  have shift_lt := shift.isLt
  cases w <;> simp only [rowOf, encode, rowShi, encodeShi, Width.code, Width.bits, Bool.and_eq_true] at h ⊢
  all_goals exact
    ⟨(field_beq_iff (by omega) _ _ _).2 (by simp only [BitVec.toNat_ofNat]; omega),
      (field_beq_field_iff (by omega) _ _ _).2 (by omega)⟩

theorem lslReg (w : Width) (d n m : Reg) : Statement (.lslReg w d n m) := by
  intro _
  have d_lt := d.isLt
  have n_lt := n.isLt
  have m_lt := m.isLt
  cases w <;> simp only [rowOf, encode, rowLslr, encodeDnm, Width.code, Bool.and_eq_true]
  all_goals exact
    ⟨(field_beq_iff (by omega) _ _ _).2 (by simp only [BitVec.toNat_ofNat]; omega),
      (field_beq_iff (by omega) _ _ _).2 (by simp only [BitVec.toNat_ofNat]; omega)⟩

theorem lsrImm (w : Width) (d n : Reg) (shift : BitVec 6) : Statement (.lsrImm w d n shift) := by
  intro h
  simp only [Instr.wf, shiftInRange, decide_eq_true_eq] at h
  have d_lt := d.isLt
  have n_lt := n.isLt
  have shift_lt := shift.isLt
  cases w <;> simp only [rowOf, encode, rowShi, encodeShi, Width.code, Width.bits, Bool.and_eq_true] at h ⊢
  all_goals exact
    ⟨(field_beq_iff (by omega) _ _ _).2 (by simp only [BitVec.toNat_ofNat]; omega),
      (field_beq_field_iff (by omega) _ _ _).2 (by omega)⟩

theorem lsrReg (w : Width) (d n m : Reg) : Statement (.lsrReg w d n m) := by
  intro _
  have d_lt := d.isLt
  have n_lt := n.isLt
  have m_lt := m.isLt
  cases w <;> simp only [rowOf, encode, rowLsrr, encodeDnm, Width.code, Bool.and_eq_true]
  all_goals exact
    ⟨(field_beq_iff (by omega) _ _ _).2 (by simp only [BitVec.toNat_ofNat]; omega),
      (field_beq_iff (by omega) _ _ _).2 (by simp only [BitVec.toNat_ofNat]; omega)⟩

theorem ldr (w : Width) (t n : Reg) (imm12 : BitVec 12) : Statement (.ldr w t n imm12) := by
  intro _
  have t_lt := t.isLt
  have n_lt := n.isLt
  have imm12_lt := imm12.isLt
  cases w <;> simp only [rowOf, encode, rowLdr, encodeLsi, Width.code, Bool.and_eq_true]
  all_goals exact
    ⟨(field_beq_iff (by omega) _ _ _).2 (by simp only [BitVec.toNat_ofNat]; omega),
      (field_beq_iff (by omega) _ _ _).2 (by simp only [BitVec.toNat_ofNat]; omega)⟩

theorem str (w : Width) (t n : Reg) (imm12 : BitVec 12) : Statement (.str w t n imm12) := by
  intro _
  have t_lt := t.isLt
  have n_lt := n.isLt
  have imm12_lt := imm12.isLt
  cases w <;> simp only [rowOf, encode, rowStr, encodeLsi, Width.code, Bool.and_eq_true]
  all_goals exact
    ⟨(field_beq_iff (by omega) _ _ _).2 (by simp only [BitVec.toNat_ofNat]; omega),
      (field_beq_iff (by omega) _ _ _).2 (by simp only [BitVec.toNat_ofNat]; omega)⟩

theorem strb (t n : Reg) (imm12 : BitVec 12) : Statement (.strb t n imm12) := by
  intro _
  have t_lt := t.isLt
  have n_lt := n.isLt
  have imm12_lt := imm12.isLt
  simp only [rowOf, encode, rowStrb, encodeLsi]
  exact (field_beq_iff (by omega) _ _ _).2 (by simp only [BitVec.toNat_ofNat]; omega)

theorem strh (t n : Reg) (imm12 : BitVec 12) : Statement (.strh t n imm12) := by
  intro _
  have t_lt := t.isLt
  have n_lt := n.isLt
  have imm12_lt := imm12.isLt
  simp only [rowOf, encode, rowStrh, encodeLsi]
  exact (field_beq_iff (by omega) _ _ _).2 (by simp only [BitVec.toNat_ofNat]; omega)

theorem movReg (w : Width) (d m : Reg) : Statement (.movReg w d m) := by
  intro _
  have d_lt := d.isLt
  have m_lt := m.isLt
  cases w <;> simp only [rowOf, encode, rowMvr, Width.code, Bool.and_eq_true]
  all_goals exact
    ⟨(field_beq_iff (by omega) _ _ _).2 (by simp only [BitVec.toNat_ofNat]; omega),
      (field_beq_iff (by omega) _ _ _).2 (by simp only [BitVec.toNat_ofNat]; omega)⟩

theorem movImm (d : Reg) (imm16 : BitVec 16) : Statement (.movImm d imm16) := by
  intro _
  have d_lt := d.isLt
  have imm16_lt := imm16.isLt
  simp only [rowOf, encode, rowMvi]
  exact (field_beq_iff (by omega) _ _ _).2 (by simp only [BitVec.toNat_ofNat]; omega)

end Sys2Proof.Laws.RowAccepts
end

