-- ==== Sys2Proof/Laws/Step.lean ====
section
/-! SUPPORT. Fetch and step, case by case (70_reset_and_hazards.md R184). -/

namespace Sys2Proof.Machine

/-- `CODE` has a word at an address exactly when the address lies in the code region. -/
theorem codeWord?_isSome (l : Launch) (a : Addr) : (l.codeWord? a).isSome = l.inCode a := by
  unfold Launch.codeWord?
  split
  · rename_i h
    simp only [h]
    simp only [Launch.inCode, decide_eq_true_eq] at h
    rw [List.getElem?_eq_getElem (by omega)]
    rfl
  · rename_i h
    simpa using h

/-- No address of the code region is an `EXIT` address: neither the end of the text nor of `EXIT_SET`. -/
theorem isExit_of_inCode {l : Launch} {a : Addr} (hl : l.wf = true) (ha : l.inCode a = true) :
    l.isExit a = false := by
  have hne : a ≠ l.codeEnd := by
    rintro rfl
    simp only [Launch.wf, Bool.and_eq_true, decide_eq_true_eq] at hl
    have : l.codeEnd - l.codeBase = BitVec.ofNat 64 (4 * l.code.length) := by
      unfold Launch.codeEnd
      bv_omega
    simp only [Launch.inCode, this, decide_eq_true_eq, BitVec.toNat_ofNat] at ha
    omega
  simp [Launch.isExit, ha, hne]

/-- The text with `I` placed at a multiple of 4 may be entered there. -/
theorem admitsEntry_placeWord (l : Launch) {a : Addr} (I : InstrWord) (ha : a.toNat % 4 = 0) :
    (l.placeWord a I).admitsEntry a = true := by
  unfold Launch.placeWord Launch.admitsEntry Launch.inCode
  dsimp only
  rw [decide_eq_true ha, Bool.true_and, decide_eq_true_eq]
  split
  · simp only [List.length_set]
    omega
  · split
    · simp only [List.length_append, List.length_singleton]
      omega
    · simp

/-- When a fetch finds a word. -/
theorem fetch_word_iff {s : State} {I : InstrWord} :
    fetch s = .word I ↔
      s.pc.toNat % 4 = 0 ∧ s.launch.isExit s.pc = false ∧ s.launch.codeWord? s.pc = some I := by
  unfold fetch
  by_cases h : s.pc.toNat % 4 = 0
  · simp only [h, ne_eq, not_true_eq_false, if_false, true_and]
    cases s.launch.isExit s.pc <;> simp
    cases s.launch.codeWord? s.pc <;> simp
  · simp [h]

/-- Everything a step that answers a next state can be: the end of the run, or an instruction. -/
theorem step_next {s t : State} (h : step s = .next t) :
    (fetch s = .ended ∧ t = s) ∨
      ∃ I i, fetch s = .word I ∧ decode s.launch.decoding I = .ok i ∧ exec i s = .next t := by
  unfold step raise at h
  split at h
  · cases h
  · rename_i e
    exact .inl ⟨e, by simpa using h.symm⟩
  · rename_i I e
    split at h
    · cases h
    · rename_i i hd
      exact .inr ⟨I, i, e, hd, h⟩

end Sys2Proof.Machine
end

