-- ==== Sys2Proof/Tests/Slice0.lean ====
section
/-! SUPPORT. Tests: what WellFormed refuses; words of the spec's encodings and what they decode to; one step on a small
state per instruction, expected results from spec/95_test_vectors.md (the vector's number stands in each comment);
and, for every obligation with hypotheses, a witness that meets them. -/

namespace Sys2Proof.Tests

open Sys2Proof.Machine Sys2Proof.Claims

/-! ### Helpers -/

/-- Flags in the order N, Z, C, V. -/
def nzcv (n z c v : Nat) : Flags :=
  { n := n == 1, z := z == 1, c := c == 1, v := v == 1 }

/-- The reset state with some registers, flags and memory bytes set; `pc` is 0x1000. -/
def stateOf (regs : List (Reg × Word64)) (f : Flags) (m : Memory) : State :=
  ((regs.foldl (fun s p => s.setX p.1 p.2) State.reset).setFlags f).setMem m

/-- One step on a word at `pc = 0x1000`. -/
def stepOn (word : Nat) (regs : List (Reg × Word64)) (f : Flags) (m : Memory := []) : Out :=
  step ((stateOf regs f m).withFetchWord 32 word)

/-- A next state in which the registers listed, the flags and `pc` are as said. -/
def sees (o : Out) (regs : List (Reg × Word64)) (f : Flags) (pc : Addr := 0x1004#64) : Bool :=
  match o with
  | .next t => regs.all (fun p => t.x p.1 == p.2) && t.flags == f && t.pc == pc
  | _ => false

/-- A next state in which the bytes listed stand in memory and no other. -/
def holds (o : Out) (m : Memory) : Bool :=
  match o with
  | .next t => t.mem == m
  | _ => false

/-- A fault, this one. -/
def stops (o : Out) (f : Fault) : Bool :=
  match o with
  | .fault g => g == f
  | _ => false

/-- The bytes 11 22 33 44 55 66 77 88 at 0x8000, as the vectors of loads have them. -/
def eightBytes : Memory :=
  [(0x8000, 0x11#8), (0x8001, 0x22#8), (0x8002, 0x33#8), (0x8003, 0x44#8), (0x8004, 0x55#8), (0x8005, 0x66#8),
    (0x8006, 0x77#8), (0x8007, 0x88#8)]

/-- `s` with `MAPPED` 16 bytes at 0x8000. -/
def narrow (s : State) : State :=
  { s with launch := { s.launch with mapped := [{ base := 0x8000#64, size := 16 }] } }

/-! ### WellFormed -/

/-- R128: the 32-bit form has no amount 32. -/
theorem test_wf_lslImm_w32_refuses_32 : (Instr.lslImm .w32 0 1 32#6).wf = false := by decide
/-- R130. -/
theorem test_wf_lsrImm_w32_refuses_32 : (Instr.lsrImm .w32 0 1 32#6).wf = false := by decide
theorem test_wf_lslImm_w32_accepts_31 : (Instr.lslImm .w32 0 1 31#6).wf = true := by decide
theorem test_wf_lsrImm_x64_accepts_63 : (Instr.lsrImm .x64 0 1 63#6).wf = true := by decide

/-! ### Words written out from the spec's encodings, one or two for every constructor -/

/-- V1. -/
theorem test_decode_b :
    decodeTableWord 32 0b000101_00000000000000000000000011 = some (.b 3#26) := by decide
/-- V2. -/
theorem test_decode_b_back :
    decodeTableWord 32 0b000101_11111111111111111111111111 = some (.b 0x3FFFFFF#26) := by decide
/-- V26. -/
theorem test_decode_bl :
    decodeTableWord 32 0b100101_00000000000000000000010000 = some (.bl 16#26) := by decide
/-- V9. -/
theorem test_decode_bCond_ne :
    decodeTableWord 32 0b01010100_1111111111111111111_0_0001 = some (.bCond .ne 0x7FFFF#19) := by decide
/-- V16. -/
theorem test_decode_bCond_al :
    decodeTableWord 32 0b01010100_0000000000000000100_0_1110 = some (.bCond .al 4#19) := by decide
/-- V21. -/
theorem test_decode_br :
    decodeTableWord 32 0b1101011000011111000000_00101_00000 = some (.br 5) := by decide
/-- V30. -/
theorem test_decode_blr :
    decodeTableWord 32 0b1101011000111111000000_00010_00000 = some (.blr 2) := by decide
/-- V32, conflict C1. -/
theorem test_decode_cmpReg :
    decodeTableWord 32 0b0_1101011000_00010_000000_00001_11111 = some (.cmpReg .w32 1 2) := by decide
/-- V41. -/
theorem test_decode_cmpImm :
    decodeTableWord 32 0b1_111000100_000000001010_00011_11111 = some (.cmpImm .x64 3 10#12) := by decide
/-- V48. -/
theorem test_decode_addImm :
    decodeTableWord 32 0b0_0_0_1000100_000000000001_00001_00000 = some (.addImm .w32 0 1 1#12) := by decide
/-- V53. -/
theorem test_decode_addsImm :
    decodeTableWord 32 0b1_0_1_1000100_000000000001_00001_00010 = some (.addsImm .x64 2 1 1#12) := by decide
/-- V56. -/
theorem test_decode_subImm :
    decodeTableWord 32 0b1_1_0_1000100_000000010000_00011_00100 = some (.subImm .x64 4 3 16#12) := by decide
/-- V57. -/
theorem test_decode_subsImm :
    decodeTableWord 32 0b0_1_1_1000100_000000000001_00000_00000 = some (.subsImm .w32 0 0 1#12) := by decide
/-- V63. -/
theorem test_decode_addReg :
    decodeTableWord 32 0b0_0_0_01011000_00010_000000_00001_00000 = some (.addReg .w32 0 1 2) := by decide
/-- V66. -/
theorem test_decode_addsReg :
    decodeTableWord 32 0b1_0_1_01011000_00010_000000_00001_00000 = some (.addsReg .x64 0 1 2) := by decide
/-- V69. -/
theorem test_decode_subReg :
    decodeTableWord 32 0b1_1_0_01011000_00010_000000_00001_00000 = some (.subReg .x64 0 1 2) := by decide
/-- V72. -/
theorem test_decode_subsReg :
    decodeTableWord 32 0b1_1_1_01011000_00111_000000_00111_00111 = some (.subsReg .x64 7 7 7) := by decide
/-- V78. -/
theorem test_decode_adc :
    decodeTableWord 32 0b1_0_0_11010000_00010_000000_00001_00000 = some (.adc .x64 0 1 2) := by decide
/-- V80. -/
theorem test_decode_adcs :
    decodeTableWord 32 0b0_0_1_11010000_00010_000000_00001_00000 = some (.adcs .w32 0 1 2) := by decide
/-- V83. -/
theorem test_decode_sbc :
    decodeTableWord 32 0b0_1_0_11010000_00010_000000_00001_00000 = some (.sbc .w32 0 1 2) := by decide
/-- V87. -/
theorem test_decode_sbcs :
    decodeTableWord 32 0b1_1_1_11010000_00010_000000_00001_00000 = some (.sbcs .x64 0 1 2) := by decide
/-- V93. -/
theorem test_decode_mul :
    decodeTableWord 32 0b1_0011011000_00101_0_11111_00100_00011 = some (.mul .x64 3 4 5) := by decide
/-- V95. -/
theorem test_decode_madd :
    decodeTableWord 32 0b0_0011011000_00010_0_00011_00001_00000 = some (.madd .w32 0 1 2 3) := by decide
/-- V100. -/
theorem test_decode_udiv :
    decodeTableWord 32 0b1_0011010110_00010_000010_00001_00000 = some (.udiv .x64 0 1 2) := by decide
/-- V105. -/
theorem test_decode_sdiv :
    decodeTableWord 32 0b0_0011010110_00010_000011_00001_00000 = some (.sdiv .w32 0 1 2) := by decide
/-- V114. -/
theorem test_decode_and :
    decodeTableWord 32 0b0_00_0101000_0_00010_000000_00001_00000 = some (.and .w32 0 1 2) := by decide
/-- V118. -/
theorem test_decode_ands :
    decodeTableWord 32 0b1_11_0101000_0_00010_000000_00001_00000 = some (.ands .x64 0 1 2) := by decide
/-- V121. -/
theorem test_decode_orr :
    decodeTableWord 32 0b1_01_0101000_0_00010_000000_00001_00000 = some (.orr .x64 0 1 2) := by decide
/-- V122. -/
theorem test_decode_orn :
    decodeTableWord 32 0b0_01_0101000_1_00010_000000_00001_00000 = some (.orn .w32 0 1 2) := by decide
/-- V126. -/
theorem test_decode_eor :
    decodeTableWord 32 0b1_10_0101000_0_00101_000000_00101_00101 = some (.eor .x64 5 5 5) := by decide
/-- V129. -/
theorem test_decode_eon :
    decodeTableWord 32 0b0_10_0101000_1_00101_000000_00101_00101 = some (.eon .w32 5 5 5) := by decide
/-- V135. -/
theorem test_decode_lslImm :
    decodeTableWord 32 0b1_10100110_1_000001_000000_00001_00000 = some (.lslImm .x64 0 1 63#6) := by decide
/-- V134. -/
theorem test_decode_lslImm_w :
    decodeTableWord 32 0b0_10100110_0_011100_011011_00001_00000 = some (.lslImm .w32 0 1 4#6) := by decide
/-- V138. -/
theorem test_decode_lslReg :
    decodeTableWord 32 0b0_0011010110_00010_001000_00001_00000 = some (.lslReg .w32 0 1 2) := by decide
/-- V141. -/
theorem test_decode_lsrImm :
    decodeTableWord 32 0b0_10100110_0_000100_011111_00001_00000 = some (.lsrImm .w32 0 1 4#6) := by decide
/-- V146. -/
theorem test_decode_lsrReg :
    decodeTableWord 32 0b1_0011010110_00010_001001_00001_00000 = some (.lsrReg .x64 0 1 2) := by decide
/-- V147. -/
theorem test_decode_ldr :
    decodeTableWord 32 0b1_0_11100101_000000000001_00001_00000 = some (.ldr .w32 0 1 1#12) := by decide
/-- V152. -/
theorem test_decode_ldr_x :
    decodeTableWord 32 0b1_1_11100101_111111111111_00001_00000 = some (.ldr .x64 0 1 0xFFF#12) := by decide
/-- V162. -/
theorem test_decode_str :
    decodeTableWord 32 0b1_1_11100100_000000000001_00001_00010 = some (.str .x64 2 1 1#12) := by decide
/-- V167. -/
theorem test_decode_strb :
    decodeTableWord 32 0b0011100100_000000000011_00001_00010 = some (.strb 2 1 3#12) := by decide
/-- V170. -/
theorem test_decode_strh :
    decodeTableWord 32 0b0111100100_000000000011_00001_00010 = some (.strh 2 1 3#12) := by decide
/-- program P3. -/
theorem test_decode_movReg :
    decodeTableWord 32 0b1_0101010000_11110_000000_11111_10011 = some (.movReg .x64 19 30) := by decide
/-- R151. -/
theorem test_decode_movImm :
    decodeTableWord 32 0b01010010100_0001001000110100_00111 = some (.movImm 7 0x1234#16) := by decide

/-! ### Words that are unallocated (R161): one for each clause -/

/-- V19. -/
theorem test_unallocated_condition1111 : decode .initial 0x5400004F#32 = .error .condition1111 := by decide
/-- V20. -/
theorem test_unallocated_bCond_bit4 : decode .initial 0x54000050#32 = .error .noFormat := by decide
/-- V24. -/
theorem test_unallocated_br_n31 : decode .initial 0xD61F03E0#32 = .error .register31 := by decide
/-- V25. -/
theorem test_unallocated_ret : decode .initial 0xD65F03C0#32 = .error .noFormat := by decide
/-- V46. -/
theorem test_unallocated_cmpReg_n31 : decode .initial 0x6B0203FF#32 = .error .register31 := by decide
/-- V47. -/
theorem test_unallocated_cmpImm_bit22 : decode .initial 0x7140043F#32 = .error .noFormat := by decide
/-- V62. -/
theorem test_unallocated_addImm_d31 : decode .initial 0x1100043F#32 = .error .register31 := by decide
/-- V74. -/
theorem test_unallocated_addReg_shifted : decode .initial 0x0B020420#32 = .error .noFormat := by decide
/-- V98. -/
theorem test_unallocated_madd_bit15 : decode .initial 0x1B028C20#32 = .error .noFormat := by decide
/-- V130. -/
theorem test_unallocated_bic : decode .initial 0x0A220020#32 = .error .logicalPair := by decide
/-- V131. -/
theorem test_unallocated_bics : decode .initial 0x6A220020#32 = .error .logicalPair := by decide
/-- V159. -/
theorem test_unallocated_ldrb : decode .initial 0x39400020#32 = .error .noFormat := by decide
/-- program P6f. -/
theorem test_unallocated_nop : decode .initial 0xD503201F#32 = .error .noFormat := by decide
/-- R67: under the defaults a shift's word is unallocated (V138). -/
theorem test_unallocated_lslReg_by_default : decode .initial 0x1AC22020#32 = .error .shiftNotAdmitted := by decide
/-- R69: a bit-field move that is neither shift. -/
theorem test_unallocated_bitFieldMove : decode .admitting 0x53010820#32 = .error .bitFieldMove := by decide
/-- R80: under `COND1111 = always` the value 1111 is read as 1110. -/
theorem test_condition1111_always :
    decode { DecodeParams.initial with cond1111 := .always } 0x5400004F#32 = .ok (.bCond .al 2#19) := by decide

/-! ### One step -/

/-- V3: branch to itself. -/
theorem test_b_self :
    sees (stepOn 0x14000000 [] (nzcv 0 0 0 0)) [] (nzcv 0 0 0 0) 0x1000#64 = true := by decide
/-- V4: the largest offset. -/
theorem test_b_far :
    sees (stepOn 0x15FFFFFF [] (nzcv 0 0 0 0)) [] (nzcv 0 0 0 0) 0x8000FFC#64 = true := by decide
/-- V9. -/
theorem test_bCond_taken :
    sees (stepOn 0x54FFFFE1 [] (nzcv 0 0 0 0)) [] (nzcv 0 0 0 0) 0xFFC#64 = true := by decide
/-- V14: GT with Z = 1. -/
theorem test_bCond_not_taken :
    sees (stepOn 0x5400008C [] (nzcv 0 1 0 0)) [] (nzcv 0 1 0 0) 0x1004#64 = true := by decide
/-- V23: completes with a misaligned target. -/
theorem test_br :
    sees (stepOn 0xD61F0000 [(0, 0x3006#64)] (nzcv 0 0 0 0)) [] (nzcv 0 0 0 0) 0x3006#64 = true := by decide
/-- V27. -/
theorem test_bl :
    sees (stepOn 0x97FFFFFE [(30, 0x7777#64)] (nzcv 0 0 0 0)) [(30, 0x1004#64)] (nzcv 0 0 0 0) 0xFF8#64 = true := by decide
/-- V31: the old X30 is the target. -/
theorem test_blr_x30 :
    sees (stepOn 0xD63F03C0 [(30, 0x5000#64)] (nzcv 0 0 0 0)) [(30, 0x1004#64)] (nzcv 0 0 0 0) 0x5000#64 = true := by decide
/-- V32: conflict C1. -/
theorem test_cmpReg_order :
    sees (stepOn 0x6B02003F [(1, 5#64), (2, 7#64)] (nzcv 0 0 0 0)) [(1, 5#64), (2, 7#64)] (nzcv 1 0 0 0) = true := by decide
/-- V40. -/
theorem test_cmpReg_overflow :
    sees (stepOn 0xEB02003F [(1, 0x7FFFFFFFFFFFFFFF#64), (2, 0xFFFFFFFFFFFFFFFF#64)] (nzcv 0 0 0 0)) [] (nzcv 1 0 0 1) = true := by decide
/-- V45. -/
theorem test_cmpImm :
    sees (stepOn 0xF100047F [(3, 0x8000000000000000#64)] (nzcv 0 0 0 0)) [] (nzcv 0 0 1 1) = true := by decide
/-- V48. -/
theorem test_addImm :
    sees (stepOn 0x11000420 [(0, 0xFFFFFFFFFFFFFFFF#64), (1, 0xFFFFFFFF#64)] (nzcv 1 0 1 0)) [(0, 0#64)] (nzcv 1 0 1 0) = true := by decide
/-- V52. -/
theorem test_addsImm :
    sees (stepOn 0x31000422 [(1, 0x7FFFFFFF#64)] (nzcv 0 0 0 0)) [(2, 0x80000000#64)] (nzcv 1 0 0 1) = true := by decide
/-- V55. -/
theorem test_subImm :
    sees (stepOn 0x51000464 [] (nzcv 0 1 0 0)) [(4, 0xFFFFFFFF#64)] (nzcv 0 1 0 0) = true := by decide
/-- V58. -/
theorem test_subsImm :
    sees (stepOn 0x71000400 [] (nzcv 0 0 0 0)) [(0, 0xFFFFFFFF#64)] (nzcv 1 0 0 0) = true := by decide
/-- V63. -/
theorem test_addReg :
    sees (stepOn 0x0B020020 [(1, 0xFFFFFFFF00000003#64), (2, 0xAAAAAAAA00000004#64)] (nzcv 0 0 0 0)) [(0, 7#64)] (nzcv 0 0 0 0) = true := by decide
/-- V64. -/
theorem test_addReg_same :
    sees (stepOn 0x8B030063 [(3, 0x4000000000000001#64)] (nzcv 0 0 0 0)) [(3, 0x8000000000000002#64)] (nzcv 0 0 0 0) = true := by decide
/-- V65. -/
theorem test_addsReg :
    sees (stepOn 0x2B020020 [(1, 0x80000000#64), (2, 0x80000000#64)] (nzcv 0 0 0 0)) [(0, 0#64)] (nzcv 0 1 1 1) = true := by decide
/-- V68. -/
theorem test_subReg :
    sees (stepOn 0x4B020020 [(1, 3#64), (2, 5#64)] (nzcv 0 0 0 0)) [(0, 0xFFFFFFFE#64)] (nzcv 0 0 0 0) = true := by decide
/-- V73. -/
theorem test_subsReg :
    sees (stepOn 0x6B020020 [(1, 0x7FFFFFFF#64), (2, 0xFFFFFFFF#64)] (nzcv 0 0 0 0)) [(0, 0x80000000#64)] (nzcv 1 0 0 1) = true := by decide
/-- V78. -/
theorem test_adc :
    sees (stepOn 0x9A020020 [(1, 1#64), (2, 2#64)] (nzcv 0 0 1 0)) [(0, 4#64)] (nzcv 0 0 1 0) = true := by decide
/-- V81. -/
theorem test_adcs :
    sees (stepOn 0xBA020020 [(1, 0x7FFFFFFFFFFFFFFF#64)] (nzcv 0 0 1 0)) [(0, 0x8000000000000000#64)] (nzcv 1 0 0 1) = true := by decide
/-- V83. -/
theorem test_sbc :
    sees (stepOn 0x5A020020 [(1, 10#64), (2, 3#64)] (nzcv 0 0 0 0)) [(0, 6#64)] (nzcv 0 0 0 0) = true := by decide
/-- V88. -/
theorem test_sbcs :
    sees (stepOn 0x7A020020 [(1, 0x80000000#64)] (nzcv 0 0 0 0)) [(0, 0x7FFFFFFF#64)] (nzcv 0 0 1 1) = true := by decide
/-- V92. -/
theorem test_mul :
    sees (stepOn 0x9B027C20 [(1, 0xFFFFFFFF#64), (2, 0xFFFFFFFF#64)] (nzcv 1 1 1 1)) [(0, 0xFFFFFFFE00000001#64)] (nzcv 1 1 1 1) = true := by decide
/-- V95. -/
theorem test_madd :
    sees (stepOn 0x1B020C20 [(1, 6#64), (2, 7#64), (3, 0xFFFFFFFF#64)] (nzcv 0 0 0 0)) [(0, 0x29#64)] (nzcv 0 0 0 0) = true := by decide
/-- V103. -/
theorem test_udiv :
    sees (stepOn 0x1AC20820 [(1, 0x100000007#64), (2, 0x500000002#64)] (nzcv 0 0 0 0)) [(0, 3#64)] (nzcv 0 0 0 0) = true := by decide
/-- V101. -/
theorem test_udiv_zero :
    sees (stepOn 0x1AC20820 [(0, 0xFFFFFFFFFFFFFFFF#64), (1, 7#64)] (nzcv 0 0 0 0)) [(0, 0#64)] (nzcv 0 0 0 0) = true := by decide
/-- V105. -/
theorem test_sdiv :
    sees (stepOn 0x1AC20C20 [(1, 0xFFFFFFF9#64), (2, 2#64)] (nzcv 0 0 0 0)) [(0, 0xFFFFFFFD#64)] (nzcv 0 0 0 0) = true := by decide
/-- V109. -/
theorem test_sdiv_overflow :
    sees (stepOn 0x1AC20C20 [(1, 0x80000000#64), (2, 0xFFFFFFFF#64)] (nzcv 0 0 0 0)) [(0, 0x80000000#64)] (nzcv 0 0 0 0) = true := by decide
/-- V114. -/
theorem test_and :
    sees (stepOn 0x0A020020 [(1, 0xFFFF0000FF00F0F0#64), (2, 0x0F0F0F0F12345678#64)] (nzcv 0 0 1 1)) [(0, 0x12005070#64)] (nzcv 0 0 1 1) = true := by decide
/-- V116. -/
theorem test_ands :
    sees (stepOn 0x6A020020 [(1, 0xFFFF0000FF00F0F0#64), (2, 0x0F0F0F0F12345678#64)] (nzcv 0 0 1 1)) [(0, 0x12005070#64)] (nzcv 0 0 0 0) = true := by decide
/-- V121. -/
theorem test_orr :
    sees (stepOn 0xAA020020 [(1, 0xFFFF0000FF00F0F0#64), (2, 0x0F0F0F0F12345678#64)] (nzcv 0 0 0 0)) [(0, 0xFFFF0F0FFF34F6F8#64)] (nzcv 0 0 0 0) = true := by decide
/-- V122. -/
theorem test_orn :
    sees (stepOn 0x2A220020 [(1, 0xFFFF0000FF00F0F0#64), (2, 0x0F0F0F0F12345678#64)] (nzcv 0 0 0 0)) [(0, 0xFFCBF9F7#64)] (nzcv 0 0 0 0) = true := by decide
/-- V125. -/
theorem test_eor :
    sees (stepOn 0xCA020020 [(1, 0xFFFF0000FF00F0F0#64), (2, 0x0F0F0F0F12345678#64)] (nzcv 0 0 0 0)) [(0, 0xF0F00F0FED34A688#64)] (nzcv 0 0 0 0) = true := by decide
/-- V127. -/
theorem test_eon :
    sees (stepOn 0x4A220020 [(1, 0xFFFF0000FF00F0F0#64), (2, 0x0F0F0F0F12345678#64)] (nzcv 0 0 0 0)) [(0, 0x12CB5977#64)] (nzcv 0 0 0 0) = true := by decide
/-- V135. -/
theorem test_lslImm :
    sees (stepOn 0xD3410020 [(1, 3#64)] (nzcv 0 0 0 0)) [(0, 0x8000000000000000#64)] (nzcv 0 0 0 0) = true := by decide
/-- V138. -/
theorem test_lslReg :
    sees (stepOn 0x1AC22020 [(1, 1#64), (2, 33#64)] (nzcv 0 0 0 0)) [(0, 2#64)] (nzcv 0 0 0 0) = true := by decide
/-- V141. -/
theorem test_lsrImm :
    sees (stepOn 0x53047C20 [(1, 0xAAAAAAAAF000000F#64)] (nzcv 0 0 0 0)) [(0, 0x0F000000#64)] (nzcv 0 0 0 0) = true := by decide
/-- V146. -/
theorem test_lsrReg :
    sees (stepOn 0x9AC22420 [(1, 0x8000000000000000#64), (2, 0x100000004#64)] (nzcv 0 0 0 0)) [(0, 0x0800000000000000#64)] (nzcv 0 0 0 0) = true := by decide
/-- V174. -/
theorem test_movReg :
    sees (stepOn 0x2A0103E0 [(0, 0xFFFFFFFFFFFFFFFF#64), (1, 0xAAAAAAAA12345678#64)] (nzcv 1 0 1 0)) [(0, 0x12345678#64)] (nzcv 1 0 1 0) = true := by decide
/-- R151. -/
theorem test_movImm :
    sees (stepOn 0x529FFFE0 [(0, 0xFFFFFFFFFFFFFFFF#64)] (nzcv 0 0 0 0)) [(0, 0xFFFF#64)] (nzcv 0 0 0 0) = true := by decide
/-- V149. -/
theorem test_ldr :
    sees (stepOn 0xF9400020 [(1, 0x8000#64)] (nzcv 0 0 0 0) eightBytes) [(0, 0x8877665544332211#64)]
      (nzcv 0 0 0 0) = true := by decide
/-- V154 under `STRICT_ALIGN = false` (its note): the bytes are taken one by one. -/
theorem test_ldr_misaligned_when_not_strict :
    sees (step { (stateOf [(1, 0x8002#64)] (nzcv 0 0 0 0) eightBytes).withFetchWord 32 0xB9400020 with
        launch := { ((stateOf [] (nzcv 0 0 0 0) []).withFetchWord 32 0xB9400020).launch with strictAlign := false } })
      [(0, 0x66554433#64)] (nzcv 0 0 0 0) = true := by decide
/-- V162. -/
theorem test_str :
    holds (stepOn 0xF9000422 [(1, 0x8000#64), (2, 0x1122334455667788#64)] (nzcv 0 0 0 0))
      [(0x8008, 0x88#8), (0x8009, 0x77#8), (0x800A, 0x66#8), (0x800B, 0x55#8), (0x800C, 0x44#8), (0x800D, 0x33#8),
        (0x800E, 0x22#8), (0x800F, 0x11#8)] = true := by decide
/-- V167. -/
theorem test_strb :
    holds (stepOn 0x39000C22 [(1, 0x8000#64), (2, 0x1122334455667788#64)] (nzcv 0 0 0 0)) [(0x8003, 0x88#8)] = true := by
  decide
/-- V170. -/
theorem test_strh :
    holds (stepOn 0x79000C22 [(1, 0x8000#64), (2, 0x1122334455667788#64)] (nzcv 0 0 0 0))
      [(0x8006, 0x88#8), (0x8007, 0x77#8)] = true := by decide
/-- Writing what an unlisted byte reads as removes the entry. -/
theorem test_strb_zero_keeps_the_form :
    holds (stepOn 0x39000022 [(1, 0x8000#64)] (nzcv 0 0 0 0) [(0x8000, 0x11#8)]) [] = true := by decide

/-! ### Faults -/

/-- V155: an 8-byte access at a multiple of 4 only. -/
theorem test_ldr_alignment :
    stops (stepOn 0xF9400020 [(1, 0x8004#64)] (nzcv 0 0 0 0)) (.alignmentFault 0x8004#64) = true := by decide
/-- V157: past the mapped bytes. -/
theorem test_ldr_unmapped :
    stops (step (narrow ((stateOf [(1, 0x8008#64)] (nzcv 0 0 0 0) []).withFetchWord 32 0xF9400420)))
      (.dataAbort 0x8010#64) = true := by decide
/-- Program P6g: a data read of the code region. -/
theorem test_ldr_code_region :
    stops (stepOn 0xB9400001 [(0, 0x1000#64)] (nzcv 0 0 0 0)) (.dataAbort 0x1000#64) = true := by decide
/-- V172. -/
theorem test_strh_alignment :
    stops (stepOn 0x79000022 [(1, 0x8001#64)] (nzcv 0 0 0 0)) (.alignmentFault 0x8001#64) = true := by decide
/-- Program P6f: NOP is not an instruction of this machine. -/
theorem test_step_unallocated :
    stops (stepOn 0xD503201F [] (nzcv 0 0 0 0)) (.undefinedInstruction 0xD503201F#32 0x1000#64) = true := by decide
/-- Program P6a: alignment of `pc` comes before everything. -/
theorem test_step_pc_alignment :
    stops (step (State.reset.setPc 0x3006#64)) (.pcAlignmentFault 0x3006#64) = true := by decide
/-- Program P6b. -/
theorem test_step_fetch_abort :
    stops (step (State.reset.setPc 0x4000#64)) (.fetchAbort 0x4000#64) = true := by decide
/-- R183: the end of the text ends the run. -/
theorem test_step_end_of_text :
    step (State.reset.setPc 0x1004#64) = .next (State.reset.setPc 0x1004#64) := rfl
/-- R180: an entry is a multiple of 4 inside the code region, so an empty text admits none. -/
theorem test_admitsEntry :
    [0xFFC#64, 0x1000#64, 0x1002#64, 0x1004#64, 0x1008#64].map
        ({ Launch.initial with code := [0#32, 0#32] } : Launch).admitsEntry = [false, true, false, true, false] ∧
      ({ Launch.initial with code := [] } : Launch).admitsEntry 0x1000#64 = false := by decide

/-! ### Assembly (R76) -/

/-- V161: `STR W2, [X1, #4]`. -/
theorem test_assemble_str :
    assemble ⟨.str, [.reg .w32 2, .memory 1 (some 4)]⟩ = some (.str .w32 2 1 1#12) := by decide
/-- R75: an offset that is not a multiple of the size is rejected. -/
theorem test_assemble_refuses_offset :
    assemble ⟨.str, [.reg .w32 2, .memory 1 (some 6)]⟩ = none := by decide
/-- R76: all register operands have one width. -/
theorem test_assemble_refuses_mixed_widths :
    assemble ⟨.add, [.reg .w32 0, .reg .x64 1, .reg .w32 2]⟩ = none := by decide

/-! ### Witnesses: for each obligation with hypotheses, a state and operands that meet them -/

/-- One word at 0x1000, X1 = 0x8000, X2 = 0x1122334455667788. -/
def storeState : State :=
  (stateOf [(1, 0x8000#64), (2, 0x1122334455667788#64)] (nzcv 0 0 0 0) []).withFetchWord 32 0xF9000422

theorem storeState_inv : storeState.Inv :=
  ⟨by decide, by decide⟩

/-- A store runs from a state that meets the invariant, and changes memory. -/
theorem witness_StepKeepsTheInvariant :
    ∃ t, storeState.Inv ∧ step storeState = .next t ∧ t.mem.length = 8 :=
  ⟨_, storeState_inv, rfl, by decide⟩

/-- The first and the last byte of the text; a read of 8 bytes that touches the text in its bytes 0 to 3. -/
theorem witness_ProgramTextIsImmutable :
    (∃ t, step storeState = .next t) ∧ storeState.launch.inCode 0x1000#64 = true ∧
      storeState.launch.inCode 0x1003#64 = true ∧ storeState.launch.inCode 0x1004#64 = false ∧
      storeState.launch.inCode (0x1000#64 + BitVec.ofNat 64 3) = true ∧ (0x1000#64).toNat % 8 = 0 :=
  ⟨⟨_, rfl⟩, by decide⟩

theorem witness_DecodeOfEncodeIsTheInstruction :
    (Instr.lslImm .w32 30 0 31#6).wf = true ∧ DecodeParams.admitting.admitShiftEncodings = true ∧
      (Instr.lslImm .x64 30 0 0#6).wf = true ∧ (Instr.madd .x64 0 30 0 30).wf = true ∧
      (Instr.madd .x64 0 30 0 30).isShift = false := by decide

theorem witness_EncodeOfDecodeIsTheWord :
    DecodeParams.admitting.cond1111 = .refuse ∧ decode .admitting 0xD37FFC20#32 = .ok (.lsrImm .x64 0 1 63) ∧
      decode .initial 0x9B020C20#32 = .ok (.madd .x64 0 1 2 3) := by decide

/-- A word of each nested row, one that decodes. -/
theorem witness_DecoderRowsAreDisjointButForTheNestedPairs :
    (rowCmr 0x6B02003F#32 = true ∧ decode .initial 0x6B02003F#32 = .ok (.cmpReg .w32 1 2)) ∧
      (rowCmi 0xF100287F#32 = true ∧ decode .initial 0xF100287F#32 = .ok (.cmpImm .x64 3 10)) ∧
      (rowMul 0x1B027C20#32 = true ∧ decode .initial 0x1B027C20#32 = .ok (.mul .w32 0 1 2)) ∧
      (rowMvr 0x2A0103E0#32 = true ∧ decode .initial 0x2A0103E0#32 = .ok (.movReg .w32 0 1)) := by decide

theorem witness_DecodedWordsLieInTheirClass :
    decode .initial 0x52824687#32 = .ok (.movImm 7 0x1234) ∧
      BitVec.extractLsb' 25 4 0x1E000000#32 = 0b1111#4 ∧ BitVec.extractLsb' 25 4 0x0E000000#32 = 0b0111#4 ∧
      BitVec.extractLsb' 25 4 0x00000000#32 = 0b0000#4 := by decide

/-- A word in each row with each free register field at 31, in the order of the statement. -/
theorem witness_RegisterField31IsUnallocated :
    rowBr 0xD61F03E0#32 ∧ rowBlr 0xD63F03E0#32 ∧ rowCmr 0x6B1F003F#32 ∧ rowCmr 0x6B0203FF#32 ∧
      rowCmi 0x710003FF#32 ∧ rowAsi 0x110003E0#32 ∧ (rowAsi 0x1100043F#32 ∧ rowCmi 0x1100043F#32 = false) ∧
      rowAsr 0x0B1F0020#32 ∧ rowAcr 0x1A0203E0#32 ∧ rowMul 0x1B027C3F#32 ∧
      (rowMadd 0x1B1F0C20#32 ∧ rowMul 0x1B1F0C20#32 = false) ∧ (rowMadd 0x1B020C3F#32 ∧ rowMul 0x1B020C3F#32 = false) ∧
      rowUdiv 0x1AC2083F#32 ∧ rowSdiv 0x1ADF0C20#32 ∧ (rowLog 0x0A0203E0#32 ∧ rowMvr 0x0A0203E0#32 = false) ∧
      rowMvr 0x2A1F03E0#32 ∧ rowMvr 0x2A0103FF#32 ∧ rowLdr 0xB94003E0#32 ∧ rowStr 0xB900003F#32 ∧
      rowStrb 0x390003E0#32 ∧ rowStrh 0x7900003F#32 ∧ rowMvi 0x5280001F#32 ∧ rowLslr 0x1ADF2020#32 ∧
      rowLsrr 0x1AC2243F#32 ∧ rowShi 0x53047C3F#32 := by decide

theorem witness_ShiftWordsAreUnallocatedUnlessAdmitted :
    DecodeParams.initial.admitShiftEncodings = false ∧
      decode .initial 0x1AC20820#32 = .ok (.udiv .w32 0 1 2) ∧
      (Instr.lslImm .w32 0 1 31).wf = true ∧ (Instr.lslImm .w32 0 1 31).isShift = true := by decide

theorem witness_AssembleOfLineIsTheInstruction : (Instr.lsrImm .x64 0 30 63).wf = true := by decide

/-- A state that meets what a fetch of a word needs, and a word that decodes. -/
theorem witness_StepRunsTheDecodedInstruction :
    storeState.pc.toNat % 4 = 0 ∧ storeState.launch.isExit storeState.pc = false ∧
      storeState.launch.codeWord? storeState.pc = some 0xF9000422#32 ∧
      decode storeState.launch.decoding 0xF9000422#32 = .ok (.str .x64 2 1 1) := by decide

theorem witness_FetchedWordIsTheLittleEndianBytes :
    (storeState.pc - storeState.launch.codeBase).toNat % 4 = 0 ∧
      storeState.launch.codeWord? storeState.pc = some 0xF9000422#32 := by decide

/-- The reset state, whose word is unallocated, and a launch whose word decodes. -/
theorem witness_LaunchBeginsWithAWordOfTheText :
    State.reset.IsLaunch ∧ step State.reset = .fault (.undefinedInstruction 0#32 0x1000#64) ∧
      (State.reset.withFetchWord 32 0xD61F0000).IsLaunch ∧
      decode (State.reset.withFetchWord 32 0xD61F0000).launch.decoding 0xD61F0000#32 = .ok (.br 0) :=
  ⟨⟨by decide, by decide, by decide, by decide⟩, rfl, ⟨by decide, by decide, by decide, by decide⟩, by decide⟩

/-- Once with a word that decodes by default, once with one that needs the optional encodings. -/
theorem witness_LaunchedWordIsFetchedAndRun :
    State.reset.pc.toNat % 4 = 0 ∧ 4 * (State.reset.launch.code.length + 1) < 2 ^ 64 ∧
      State.reset.launch.decoding.cond1111 = .refuse ∧
      decodeTableWord 32 0xF9000422 = some (.str .x64 2 1 1) ∧
      decodeTableWord 32 0x1AC22020 = some (.lslReg .w32 0 1 2) := by decide

/-- `pc` at each misalignment; BR to a misaligned address runs. -/
theorem witness_MisalignedPcFaultsAndComesOnlyFromBrOrBlr :
    (State.reset.setPc 0x1001#64).pc.toNat % 4 ≠ 0 ∧ (State.reset.setPc 0x1003#64).pc.toNat % 4 ≠ 0 ∧
      ∃ t, stepOn 0xD61F0000 [(0, 0x3006#64)] (nzcv 0 0 0 0) = .next t ∧ t.pc.toNat % 4 ≠ 0 :=
  ⟨by decide, by decide, _, rfl, by decide⟩

theorem witness_FetchOutsideTheCodeAborts :
    (State.reset.setPc 0x4000#64).pc.toNat % 4 = 0 ∧ State.reset.launch.inCode 0x4000#64 = false ∧
      State.reset.launch.isExit 0x4000#64 = false := by decide

theorem witness_UnallocatedWordIsUndefined :
    (State.reset.withFetchWord 32 0xD503201F).pc.toNat % 4 = 0 ∧
      (State.reset.withFetchWord 32 0xD503201F).launch.isExit 0x1000#64 = false ∧
      (State.reset.withFetchWord 32 0xD503201F).launch.codeWord? 0x1000#64 = some 0xD503201F#32 ∧
      decode (State.reset.withFetchWord 32 0xD503201F).launch.decoding 0xD503201F#32 = .error .noFormat := by decide

theorem witness_RunEndsAtExitAddresses :
    (State.reset.setPc 0x1004#64).pc.toNat % 4 = 0 ∧ State.reset.launch.isExit 0x1004#64 = true ∧
      ({ State.reset.launch with exitSet := [0xF000#64] } : Launch).isExit 0xF000#64 = true := by decide

/-- Each of the five faults is met. -/
theorem witness_EveryFaultHasItsCauseInOrder :
    step (State.reset.setPc 0x3006#64) = .fault (.pcAlignmentFault 0x3006#64) ∧
      step (State.reset.setPc 0x4000#64) = .fault (.fetchAbort 0x4000#64) ∧
      stepOn 0xD503201F [] (nzcv 0 0 0 0) = .fault (.undefinedInstruction 0xD503201F#32 0x1000#64) ∧
      stepOn 0xF9400020 [(1, 0x8004#64)] (nzcv 0 0 0 0) = .fault (.alignmentFault 0x8004#64) ∧
      stepOn 0xB9400001 [(0, 0x1000#64)] (nzcv 0 0 0 0) = .fault (.dataAbort 0x1000#64) :=
  ⟨rfl, rfl, rfl, rfl, rfl⟩

/-- A non-writer, a writer, and a carry reader with flags that agree on C alone. -/
theorem witness_FlagsAreWrittenOnlyByTheListedInstructions :
    (∃ t, exec (.addReg .w32 0 1 2) storeState = .next t) ∧ writesFlags (.addReg .w32 0 1 2) = false ∧
      (∃ t, exec (.adcs .w32 0 1 2) storeState = .next t) ∧ writesFlags (.adcs .w32 0 1 2) = true ∧
      readsCarry (.adcs .w32 0 1 2) = true ∧ (nzcv 1 1 0 1).c = storeState.flags.c :=
  ⟨⟨_, rfl⟩, rfl, ⟨_, rfl⟩, rfl, rfl, rfl⟩

theorem witness_FlagsAreReadOnlyByTheListedInstructions :
    (∃ t, exec (.sbc .x64 0 1 2) storeState = .next t) ∧ readsCarry (.sbc .x64 0 1 2) = true ∧
      (nzcv 1 1 0 1).c = storeState.flags.c ∧ ∀ c k, Instr.sbc .x64 0 1 2 ≠ .bCond c k :=
  ⟨⟨_, rfl⟩, rfl, rfl, fun _ _ => by simp⟩

theorem witness_RegistersAreWrittenOnlyAsTheTableSays :
    (∃ t, exec (.bl 1#26) storeState = .next t) ∧ writtenReg (.bl 1#26) ≠ some 29 ∧
      (∃ t, exec (.str .x64 2 1 1) storeState = .next t) ∧ writtenReg (.str .x64 2 1 1) ≠ some 1 :=
  ⟨⟨_, rfl⟩, by decide, ⟨_, rfl⟩, by decide⟩

/-- A register not read that is written, and one that is not. -/
theorem witness_RegistersAreReadOnlyAsTheTableSays :
    (∃ t, exec (.bl 1#26) storeState = .next t) ∧ (30 : Reg) ∉ readRegs (.bl 1#26) ∧
      writtenReg (.bl 1#26) = some 30 ∧ (29 : Reg) ∉ readRegs (.bl 1#26) ∧ writtenReg (.bl 1#26) ≠ some 29 :=
  ⟨⟨_, rfl⟩, by decide⟩

theorem witness_OnlyStoresChangeMemory :
    (∃ t, exec (.ldr .x64 0 1 0) storeState = .next t) ∧ isStore (.ldr .x64 0 1 0) = false ∧
      (∃ t, exec (.strh 2 1 0) storeState = .next t) ∧ isStore (.strh 2 1 0) = true ∧
      accessOf storeState (.strh 2 1 0) = some (2, 0x8000#64) ∧
      ∀ k < 2, (0x8002#64 : Addr) ≠ 0x8000#64 + BitVec.ofNat 64 k :=
  ⟨⟨_, rfl⟩, rfl, ⟨_, rfl⟩, rfl, by decide, by decide⟩

/-- The word of V19, under each setting. -/
theorem witness_ConditionsHoldAsTheTableSays :
    rowBCond 0x5400004F#32 = true ∧ BitVec.extractLsb' 0 4 0x5400004F#32 = 0b1111#4 ∧
      DecodeParams.initial.cond1111 = .refuse ∧
      ({ DecodeParams.initial with cond1111 := .always } : DecodeParams).cond1111 = .always := by decide

theorem witness_ConditionalBranchJumpsIffItsConditionHolds :
    conditionHolds .ne State.reset.flags = true ∧ conditionHolds .eq State.reset.flags = false := by decide

/-- A divisor that is not zero and one that is. -/
theorem witness_UnsignedDivideWritesTheQuotient :
    uint storeState .x64 1 ≠ 0 ∧ uint storeState .x64 0 = 0 ∧ storeState.launch.divZero = .zero := by decide

/-- Ordinary operands, the overflow case under `wrap`, and a zero divisor. -/
theorem witness_SignedDivideWritesTheTruncatedQuotient :
    let s := stateOf [(1, 0x80000000#64), (2, 0xFFFFFFFF#64)] (nzcv 0 0 0 0) []
    sint s .w32 1 = -2 ^ 31 ∧ sint s .w32 2 = -1 ∧ s.launch.divOverflow = .wrap ∧ sint s .w32 0 = 0 ∧
      s.launch.divZero = .zero := by decide

theorem witness_ImmediateShiftsMoveTheBits :
    (0#6).toNat < Width.w32.bits ∧ (31#6).toNat < Width.w32.bits ∧ (63#6).toNat < Width.x64.bits := by decide

/-- Amounts below and at the width, and the `saturate` reading. -/
theorem witness_RegisterShiftsMoveTheBits :
    let s := stateOf [(1, 31#64), (2, 32#64)] (nzcv 0 0 0 0) []
    ¬ Width.w32.bits ≤ uint s .w32 1 ∧ Width.w32.bits ≤ uint s .w32 2 ∧
      ({ s with launch := { s.launch with shiftRegAmount := .saturate } } : State).launch.shiftRegAmount = .saturate := by
  decide

theorem witness_AccessAddressIsBasePlusScaledOffset :
    (1 : Nat) ∈ [1, 2, 4, 8] ∧ (8 : Nat) ∈ [1, 2, 4, 8] := by decide

/-- An aligned access of each width, and a misaligned one without `STRICT_ALIGN`. -/
theorem witness_LoadReadsTheBytesAtItsAddress :
    Accessible storeState (accessAddress storeState 1 0xFFF#12 8) 8 ∧
      Accessible storeState (accessAddress storeState 1 0#12 4) 4 ∧
      Accessible { storeState with launch := { storeState.launch with strictAlign := false } } 0xFFFFFFFFFFFFFFFD#64 8 := by
  refine ⟨⟨?_, ?_⟩, ⟨?_, ?_⟩, ⟨?_, ?_⟩⟩ <;> decide

theorem witness_StoreWritesTheRegisterAtItsAddress :
    storeState.mem.wf ∧ Accessible storeState (accessAddress storeState 1 0#12 8) 8 :=
  ⟨by decide, by decide, by decide⟩

theorem witness_NarrowStoresWriteTheLowBytes :
    storeState.mem.wf ∧ storeState.launch.dataMapped (accessAddress storeState 1 0xFFF#12 1) = true ∧
      Accessible storeState (accessAddress storeState 1 0xFFF#12 2) 2 :=
  ⟨by decide, by decide, by decide, by decide⟩

/-- An access that is not aligned, one whose last byte is not mapped, and a byte store. -/
theorem witness_FaultingAccessesStop :
    (accessOf (stateOf [(1, 0x8001#64)] (nzcv 0 0 0 0) []) (.strh 2 1 0) = some (2, 0x8001#64) ∧
      State.reset.launch.strictAlign = true ∧ (0x8001#64).toNat % 2 ≠ 0) ∧
    (accessOf (narrow storeState) (.ldr .x64 0 1 2) = some (8, 0x8010#64) ∧ (0x8010#64).toNat % 8 = 0 ∧
      ∃ k < 8, (narrow storeState).launch.dataMapped (0x8010#64 + BitVec.ofNat 64 k) = false) ∧
    accessOf storeState (.strb 2 1 3) = some (1, 0x8003#64) :=
  ⟨by decide, ⟨by decide, by decide, 7, by decide, by decide⟩, by decide⟩

theorem witness_LoadAfterStoreReadsTheStoredValue :
    ∃ t, storeState.mem.wf ∧ exec (.str .x64 2 1 1) storeState = .next t ∧ t.mem = t.mem ∧
      accessAddress t 1 1#12 8 = accessAddress storeState 1 1#12 8 :=
  ⟨_, by decide, rfl, rfl, by decide⟩

end Sys2Proof.Tests
end

section
/-! PROOFS of the scope family (00_scope.md): what a step is in each case of fetch and decode, that nothing is
refused, and the parameters of the reset state. -/

namespace Sys2Proof.Machine

/-! ### A step, case by case (R8, R184) -/

theorem step_of_abort {s : State} {f : Fault} (h : fetch s = .abort f) : step s = .fault f := by
  simp only [step, h, raise]

theorem step_of_ended {s : State} (h : fetch s = .ended) : step s = .next s := by
  simp only [step, h]

theorem step_of_decode_error {s : State} {I : InstrWord} {e : Unallocated} (h : fetch s = .word I)
    (hd : decode s.launch.decoding I = .error e) : step s = .fault (.undefinedInstruction I s.pc) := by
  simp only [step, h, hd, raise]

theorem step_of_decode_ok {s : State} {I : InstrWord} {i : Instr} (h : fetch s = .word I)
    (hd : decode s.launch.decoding I = .ok i) : step s = exec i s := by
  simp only [step, h, hd]

/-! ### No refusal (R3, R172) -/

/-- A load ends in a fault or a next state. -/
theorem finishLoad_ne_refused (w : Width) (t : Reg) (x : Except Fault (BitVec (8 * w.bytes))) (s : State)
    (r : Refusal) : finishLoad w t x s ≠ .refused r := by
  cases x <;> simp [finishLoad, finishReg, raise]

/-- A store ends in a fault or a next state. -/
theorem finishStore_ne_refused (x : Except Fault State) (r : Refusal) : finishStore x ≠ .refused r := by
  cases x <;> simp [finishStore, raise]

/-- Loads and stores end in a fault or a next state, every other instruction in a next state. -/
theorem exec_ne_refused (i : Instr) (s : State) (r : Refusal) : exec i s ≠ .refused r := by
  intro h
  cases i
  case ldr => exact finishLoad_ne_refused _ _ _ _ _ h
  case str | strb | strh => exact finishStore_ne_refused _ _ h
  case bCond =>
    simp only [exec, execBCond] at h
    split at h <;> cases h
  all_goals cases h

theorem step_ne_refused (s : State) (r : Refusal) : step s ≠ .refused r := by
  cases hf : fetch s with
  | abort f => simp [step_of_abort hf]
  | ended => simp [step_of_ended hf]
  | word I =>
    cases hd : decode s.launch.decoding I with
    | error e => simp [step_of_decode_error hf hd]
    | ok i =>
      rw [step_of_decode_ok hf hd]
      exact exec_ne_refused i s r

/-! ### The reset state (R5, R17, R180) -/

/-- `ENTRY` of the reset state may be entered (R180). -/
theorem reset_admitsEntry : State.reset.launch.admitsEntry State.reset.pc = true := by decide

/-- The one word of the reset state's text stands at a multiple of 4 (log entry 20). -/
theorem reset_launch_wf : State.reset.launch.wf = true := by decide

/-! ### The obligations -/

/-- Settles O1: the defaults are the fields of `Launch.initial`; that `pc` is a multiple of 4 in the code region
is `reset_admitsEntry`. -/
theorem resetHoldsTheDefaultParameters : Obligations.ResetHoldsTheDefaultParameters := by
  have hentry := reset_admitsEntry
  simp only [Launch.admitsEntry, Bool.and_eq_true, decide_eq_true_eq] at hentry
  obtain ⟨haligned, hinCode⟩ := hentry
  exact ⟨rfl, rfl, rfl, rfl, rfl, rfl, rfl, rfl, haligned, hinCode, reset_launch_wf⟩

/-- Settles O15: the three conditions on `pc` are those under which a fetch finds the word. -/
theorem stepRunsTheDecodedInstruction : Obligations.StepRunsTheDecodedInstruction := by
  intro s I i haligned hexit hword hd
  exact step_of_decode_ok (fetch_word_iff.2 ⟨haligned, hexit, hword⟩) hd

/-- Settles O24, instruction by instruction, then along the cases of a step. -/
theorem nothingIsRefused : Obligations.NothingIsRefused :=
  ⟨exec_ne_refused, step_ne_refused⟩

end Sys2Proof.Machine
end

section
/-! PROOFS of the state family (10_state.md): which instructions write and read the flags (R19, R20), the general
registers (R14) and memory (R23, R39). Noninterference is proved as an equation: what `exec` answers after an update
of the state before is its answer without that update, or that answer updated in the same way. -/

namespace Sys2Proof.Machine

open Sys2Proof.Claims

/-! ### Updating the state an outcome carries -/

/-- The outcome with `g` applied to its next state; a fault or a refusal stays. -/
def mapNext (g : State → State) : Out → Out
  | .next t => .next (g t)
  | .fault f => .fault f
  | .refused r => .refused r

@[simp] theorem mapNext_next (g : State → State) (t : State) : mapNext g (.next t) = .next (g t) := rfl

/-- B.cond updates `pc` alone, whether it jumps or not (R82). -/
theorem exec_bCond (c : Cond) (imm19 : BitVec 19) (s : State) :
    exec (.bCond c imm19) s =
      .next (s.setPc (if conditionHolds c s.flags then branchTarget s imm19 else s.pc + 4#64)) := by
  simp only [exec, execBCond]
  split
  · rfl
  · rfl

/-! ### Flags set before an instruction (R19, R20) -/

section SetFlags
variable (s : State) (f : Flags)

/-- An access meets the same fault whatever the flags are. -/
theorem accessFault?_setFlags (a : Addr) (n : Nat) : accessFault? (s.setFlags f) a n = accessFault? s a n := rfl

theorem finishLoad_setFlags (w : Width) (t : Reg) (x : Except Fault (BitVec (8 * w.bytes))) :
    finishLoad w t x (s.setFlags f) = mapNext (·.setFlags f) (finishLoad w t x s) := by
  cases x with
  | error e => rfl
  | ok data => rfl

theorem finishStore_setFlags (a : Addr) (n : Nat) (u : BitVec (8 * n)) :
    finishStore (memWrite (s.setFlags f) a n u) = mapNext (·.setFlags f) (finishStore (memWrite s a n u)) := by
  simp only [memWrite, accessFault?_setFlags]
  cases accessFault? s a n with
  | some e => rfl
  | none => rfl

variable {s f}

/-- Flags set before an instruction that is not B.cond, with the carry it reads: a writer of the flags sets all four
over them, any other instruction leaves them as they were set. -/
theorem exec_setFlags {i : Instr} (hb : ∀ c k, i ≠ .bCond c k) (hc : readsCarry i = true → f.c = s.flags.c) :
    exec i (s.setFlags f) = if writesFlags i then exec i s else mapNext (·.setFlags f) (exec i s) := by
  cases i
  case bCond c k => exact absurd rfl (hb c k)
  case adc | adcs | sbc | sbcs =>
    have hcarry := hc rfl
    simp only [exec, execAdc, execAdcs, execSbc, execSbcs, State.setFlags_flags, hcarry]
    rfl
  case ldr => exact finishLoad_setFlags s f _ _ _
  case str | strb | strh => exact finishStore_setFlags s f _ _ _
  all_goals rfl

end SetFlags

/-- An instruction that writes no flags keeps them: setting the flags to what they are changes nothing before it,
so nothing after it. -/
theorem exec_flags_of_not_writesFlags {i : Instr} {s t : State} (h : exec i s = .next t)
    (hw : writesFlags i = false) : t.flags = s.flags := by
  by_cases hb : ∃ c k, i = .bCond c k
  · obtain ⟨c, k, rfl⟩ := hb
    rw [exec_bCond] at h
    cases h
    rfl
  · have key := exec_setFlags (s := s) (f := s.flags) (fun c k e => hb ⟨c, k, e⟩) fun _ => rfl
    have hsame : s.setFlags s.flags = s := rfl
    rw [hsame, h, hw] at key
    have ht : t = t.setFlags s.flags := by simpa using key
    rw [ht, State.setFlags_flags]

/-! ### A register set before an instruction (R14) -/

/-- Two writes of registers: the second wins over the same register, and they commute on different ones. -/
theorem State.setX_setX (s : State) (r d : Reg) (v u : Word64) :
    (s.setX r v).setX d u = if d = r then s.setX d u else (s.setX d u).setX r v := by
  split
  · rename_i hd
    subst hd
    simp [State.setX]
  · rename_i hd
    have hval : r.val ≠ d.val := fun e => hd (Fin.ext e.symm)
    simp [State.setX, Vector.set_comm _ _ hval]

section SetX
variable (s : State) (r : Reg) (v : Word64)

theorem State.setX_readReg_other (w : Width) {q : Reg} (h : r ≠ q) : (s.setX r v).readReg w q = s.readReg w q := by
  rw [State.readReg, State.setX_x_other _ _ h.symm, State.readReg]

theorem accessAddress_setX (n : Reg) (imm12 : BitVec 12) (sz : Nat) (h : r ≠ n) :
    accessAddress (s.setX r v) n imm12 sz = accessAddress s n imm12 sz := by
  rw [accessAddress, State.setX_x_other _ _ h.symm, accessAddress]

/-- An access meets the same fault whatever the registers are. -/
theorem accessFault?_setX (a : Addr) (n : Nat) : accessFault? (s.setX r v) a n = accessFault? s a n := rfl

theorem memRead_setX (a : Addr) (n : Nat) : memRead (s.setX r v) a n = memRead s a n := rfl

/-- An ending that writes `d` and then applies an update `k` that leaves register `r` alone. -/
theorem next_setX_setX (k : State → State) (hk : ∀ t : State, k (t.setX r v) = (k t).setX r v) (d : Reg)
    (u : Word64) :
    (.next (k ((s.setX r v).setX d u)) : Out) =
      if some d = some r then .next (k (s.setX d u)) else mapNext (·.setX r v) (.next (k (s.setX d u))) := by
  rw [State.setX_setX]
  by_cases hd : d = r
  · rw [if_pos hd, if_pos (congrArg some hd)]
  · rw [if_neg hd, if_neg (fun e => hd (Option.some.inj e)), hk, mapNext_next]

theorem finishReg_setX (w : Width) (d : Reg) {u u' : BitVec w.bits} (hu : u' = u) :
    finishReg w d u' (s.setX r v) =
      if some d = some r then finishReg w d u s else mapNext (·.setX r v) (finishReg w d u s) := by
  subst hu
  exact next_setX_setX s r v State.advance (fun _ => rfl) d _

theorem finishRegFlags_setX (w : Width) (d : Reg) {u u' : BitVec w.bits × Flags} (hu : u' = u) :
    finishRegFlags w d u' (s.setX r v) =
      if some d = some r then finishRegFlags w d u s else mapNext (·.setX r v) (finishRegFlags w d u s) := by
  subst hu
  exact next_setX_setX s r v (fun t => (t.setFlags u'.2).advance) (fun _ => rfl) d _

theorem finishFlags_setX {g g' : Flags} (hg : g' = g) :
    finishFlags g' (s.setX r v) = mapNext (·.setX r v) (finishFlags g s) := by
  subst hg
  rfl

theorem finishLoad_setX (w : Width) (t : Reg) (x : Except Fault (BitVec (8 * w.bytes))) :
    finishLoad w t x (s.setX r v) =
      if some t = some r then finishLoad w t x s else mapNext (·.setX r v) (finishLoad w t x s) := by
  cases x with
  | error e => exact (ite_self _).symm
  | ok data => exact finishReg_setX s r v w t rfl

theorem finishStore_setX (a : Addr) (n : Nat) (u : BitVec (8 * n)) :
    finishStore (memWrite (s.setX r v) a n u) = mapNext (·.setX r v) (finishStore (memWrite s a n u)) := by
  simp only [memWrite, accessFault?_setX]
  cases accessFault? s a n with
  | some e => rfl
  | none => rfl

variable {r}

/-- A register set before an instruction that does not read it: the register the instruction writes is written over,
any other is left as it was set. -/
theorem exec_setX {i : Instr} (hr : r ∉ readRegs i) :
    exec i (s.setX r v) =
      if writtenReg i = some r then exec i s else mapNext (·.setX r v) (exec i s) := by
  cases i <;> simp only [readRegs, List.mem_cons, List.not_mem_nil, or_false, not_or] at hr
  case b => rfl
  case bCond c imm19 =>
    rw [exec_bCond, exec_bCond]
    rfl
  case br n =>
    rw [exec, execBr, State.setX_x_other _ _ (Ne.symm hr)]
    rfl
  case bl imm26 => exact next_setX_setX s r v (·.setPc (branchTarget s imm26)) (fun _ => rfl) _ _
  case blr n =>
    rw [exec, execBlr, State.setX_x_other _ _ (Ne.symm hr)]
    exact next_setX_setX s r v (·.setPc (s.x n)) (fun _ => rfl) _ _
  case cmpReg | cmpImm => exact finishFlags_setX s r v (by simp [State.setX_readReg_other, hr])
  case ldr w t n imm12 =>
    rw [exec, execLdr, memRead_setX, accessAddress_setX s r v n imm12 _ hr]
    exact finishLoad_setX s r v w t _
  case str | strb | strh =>
    obtain ⟨hn, ht⟩ := hr
    simp only [exec, execStr, execStrb, execStrh, accessAddress_setX _ _ _ _ _ _ hn,
      State.setX_x_other _ _ (Ne.symm ht)]
    exact finishStore_setX s r v _ _ _
  case addsImm | subsImm | addsReg | subsReg | adcs | sbcs | ands =>
    exact finishRegFlags_setX s r v _ _ (by simp [State.setX_readReg_other, hr])
  all_goals exact finishReg_setX s r v _ _ (by simp [State.setX_readReg_other, hr])

end SetX

/-- A register that is not the one the access table lists as written keeps its value. -/
theorem exec_x_of_not_written {i : Instr} {s t : State} (h : exec i s = .next t) {r : Reg}
    (hr : writtenReg i ≠ some r) : t.x r = s.x r := by
  have hne : ∀ {d : Reg}, writtenReg i = some d → r ≠ d := fun hd e => hr (e ▸ hd)
  cases i
  case bCond => rw [exec_bCond] at h; cases h; rfl
  case bl | blr => cases h; exact State.setX_x_other s _ (hne rfl)
  case ldr => obtain ⟨u, -, rfl⟩ := finishLoad_next h; exact reg_frame s _ _ (hne rfl)
  case str | strb | strh => obtain ⟨-, rfl⟩ := finishStore_next h; rfl
  case b | br | cmpReg | cmpImm => cases h; rfl
  all_goals cases h; exact reg_frame s _ _ (hne rfl)

/-! ### Memory (R23, R39, R140) -/

theorem exec_mem_of_not_store {i : Instr} {s t : State} (h : exec i s = .next t) (hi : isStore i = false) :
    t.mem = s.mem := by
  cases i
  case bCond => rw [exec_bCond] at h; cases h; rfl
  case ldr => obtain ⟨u, -, rfl⟩ := finishLoad_next h; rfl
  case str | strb | strh => cases hi
  all_goals cases h; rfl

/-- A store keeps every byte outside its access. -/
theorem exec_byteAt_of_store {i : Instr} {s t : State} (h : exec i s = .next t) (hi : isStore i = true)
    {sz : Nat} {addr a : Addr} (hacc : accessOf s i = some (sz, addr))
    (ha : ∀ k < sz, a ≠ addr + BitVec.ofNat 64 k) : t.byteAt a = s.byteAt a := by
  cases i
  case str | strb | strh =>
    cases hacc
    obtain ⟨-, rfl⟩ := finishStore_next h
    exact store_frame s _ a _ _ ha
  all_goals cases hi

/-! ### The obligations -/

/-- Settles O25: that the other instructions keep the flags is `exec_flags_of_not_writesFlags`; a writer answers the
same state whatever the flags were, by `exec_setFlags`. -/
theorem flagsAreWrittenOnlyByTheListedInstructions : Obligations.FlagsAreWrittenOnlyByTheListedInstructions := by
  refine ⟨fun i s t => exec_flags_of_not_writesFlags, fun i s t f h hw hc => ⟨t, ?_, rfl⟩⟩
  have hb : ∀ c k, i ≠ .bCond c k := by rintro c k rfl; cases hw
  rw [exec_setFlags hb hc, if_pos hw, h]

/-- Settles O26, by `exec_setFlags`. -/
theorem flagsAreReadOnlyByTheListedInstructions : Obligations.FlagsAreReadOnlyByTheListedInstructions := by
  intro i s t f h hb hc
  rw [exec_setFlags hb hc, h, mapNext_next, apply_ite Host.Outcome.next]

/-- Settles O27, instruction by instruction. -/
theorem registersAreWrittenOnlyAsTheTableSays : Obligations.RegistersAreWrittenOnlyAsTheTableSays :=
  fun _ _ _ h _ => exec_x_of_not_written h

/-- Settles O28, by `exec_setX`. -/
theorem registersAreReadOnlyAsTheTableSays : Obligations.RegistersAreReadOnlyAsTheTableSays := by
  intro i s t r v h hr
  have key := exec_setX s v hr
  rw [h] at key
  exact ⟨fun hw => by rw [key, if_pos hw], fun hw => by rw [key, if_neg hw, mapNext_next]⟩

/-- Settles O29: the other instructions keep the memory and the launch, which is all a byte depends on. -/
theorem onlyStoresChangeMemory : Obligations.OnlyStoresChangeMemory := by
  refine fun i s t h => ⟨fun hi => ?_, fun sz addr hi hacc a => exec_byteAt_of_store h hi hacc⟩
  have hmem := exec_mem_of_not_store h hi
  exact ⟨hmem, State.byteAt_congr hmem (exec_launch h)⟩

end Sys2Proof.Machine
end

section
/-! PROOFS of the memory family (20_memory.md): the invariant of memory (R31, R35), the program text, which no step
changes and no data access reaches (R44), the bytes of a fetched word (R33), and reading back what a store wrote
(R32, R42). -/

namespace Sys2Proof.Machine

open Sys2Proof.Claims

/-! ### The invariant (R31, R35) -/

/-- The invariant speaks of memory and the launch alone. -/
theorem State.Inv.congr {s t : State} (h : s.Inv) (hm : t.mem = s.mem) (hl : t.launch = s.launch) : t.Inv := by
  obtain ⟨hwf, hmapped⟩ := h
  exact ⟨hm ▸ hwf, by rwa [hm, hl]⟩

/-- Bytes written by an access that meets no fault are listed at mapped addresses. -/
theorem State.Inv.writeBytes {s : State} (h : s.Inv) {a : Addr} {bytes : List Byte}
    (ha : accessFault? s a bytes.length = none) : (s.setMem (s.mem.writeBytes a bytes)).Inv := by
  obtain ⟨hwf, hmapped⟩ := h
  refine ⟨Memory.wf_writeBytes hwf a bytes, fun c hc => ?_⟩
  rcases Memory.mem_writeBytes hc with ⟨k, hk, haddr⟩ | hold
  · have hnew := ((accessFault?_eq_none_iff s a _).1 ha).2 k hk
    rwa [haddr, BitVec.ofNat_toNat, BitVec.setWidth_eq]
  · exact hmapped c hold

/-- Only a store touches memory, and it writes where its access meets no fault. -/
theorem Effect.inv {s t : State} (h : Effect s t) (hs : s.Inv) : t.Inv := by
  cases h with
  | store a n v ha => exact (hs.writeBytes (by simpa using ha)).congr rfl rfl
  | reg | regFlags | flags | jump | call => exact hs.congr rfl rfl

/-! ### The program text (R33, R44) -/

theorem step_launch {s t : State} (h : step s = .next t) : t.launch = s.launch := by
  rcases step_next h with ⟨-, rfl⟩ | ⟨I, i, -, -, hexec⟩
  · rfl
  · exact exec_launch hexec

theorem State.byteAt_of_inCode {s : State} {a : Addr} (h : s.launch.inCode a = true) :
    s.byteAt a = s.launch.codeByte? a := by
  rw [State.byteAt, if_pos h]

theorem dataMapped_of_inCode {l : Launch} {a : Addr} (h : l.inCode a = true) : l.dataMapped a = false := by
  simp [Launch.dataMapped, h]

/-- An aligned access with a byte in the code region is a DataAbort (R44, R164). -/
theorem accessFault?_of_inCode {s : State} {addr : Addr} {n k : Nat} (hk : k < n)
    (hcode : s.launch.inCode (byteAddr addr k) = true)
    (halign : s.launch.strictAlign = true → addr.toNat % n = 0) :
    accessFault? s addr n = some (.dataAbort addr) :=
  (accessFault?_eq_some_iff s addr n _).2 (.inr ⟨rfl, halign, k, hk, dataMapped_of_inCode hcode⟩)

theorem codeWord?_eq_some_iff {l : Launch} {a : Addr} {I : InstrWord} :
    l.codeWord? a = some I ↔ l.inCode a = true ∧ l.code[(a - l.codeBase).toNat / 4]? = some I := by
  simp [Launch.codeWord?]

/-- Where a word of `CODE` begins, its four bytes follow in rising order; they do not run past the text, nor past
the end of the address space (R33). -/
theorem codeByte?_of_codeWord? {l : Launch} {a : Addr} {I : InstrWord} (hbegin : (a - l.codeBase).toNat % 4 = 0)
    (hword : l.codeWord? a = some I) {j : Nat} (hj : j < 4) :
    l.inCode (byteAddr a j) = true ∧ l.codeByte? (byteAddr a j) = some (I.extractLsb' (8 * j) 8) := by
  obtain ⟨hin, hI⟩ := codeWord?_eq_some_iff.1 hword
  have hoff : (byteAddr a j - l.codeBase).toNat = (a - l.codeBase).toNat + j := by
    unfold byteAddr
    bv_omega
  have hin' : l.inCode (byteAddr a j) = true := by
    simp only [Launch.inCode, decide_eq_true_eq] at hin ⊢
    omega
  have hdiv : ((a - l.codeBase).toNat + j) / 4 = (a - l.codeBase).toNat / 4 := by omega
  have hmod : ((a - l.codeBase).toNat + j) % 4 = j := by omega
  have hword' : l.codeWord? (byteAddr a j) = some I :=
    codeWord?_eq_some_iff.2 ⟨hin', by rw [hoff, hdiv, hI]⟩
  exact ⟨hin', by rw [Launch.codeByte?, hword', Option.map_some, hoff, hmod]⟩

/-- A word is its four bytes, the least significant last. -/
theorem word_eq_append_bytes (I : InstrWord) :
    I = I.extractLsb' 24 8 ++ I.extractLsb' 16 8 ++ I.extractLsb' 8 8 ++ I.extractLsb' 0 8 := by
  have join (lo len : Nat) : I.extractLsb' (lo + 8) len ++ I.extractLsb' lo 8 = I.extractLsb' lo (len + 8) :=
    BitVec.extractLsb'_append_extractLsb'_eq_extractLsb' rfl
  rw [join 16 8, join 8 16, join 0 24, BitVec.extractLsb'_eq_self]

/-! ### Reading back what a store wrote (R32, R42) -/

theorem Memory.readBytes_writeBytes_same {m : Memory} (hm : m.wf) (addr : Addr) {bytes : List Byte}
    (hlen : bytes.length ≤ 2 ^ 64) : (m.writeBytes addr bytes).readBytes addr bytes.length = bytes := by
  obtain ⟨hsorted, -⟩ := hm
  refine List.ext_getElem (by simp) fun k _ hk => ?_
  rw [List.getElem_eq_iff, Memory.readBytes_getElem? _ _ _ _ hk, Memory.read_writeBytes_same hsorted addr bytes hlen]

/-- A value is spelt by its bytes, in whichever order they were laid out. -/
theorem ofNat_littleEndian_dataOrder (be : Bool) (n : Nat) (v : BitVec (8 * n)) :
    BitVec.ofNat (8 * n) (littleEndian (dataOrder be (dataOrder be (littleEndianBytes n v.toNat)))) = v := by
  have hpow : 256 ^ n = 2 ^ (8 * n) := by rw [Nat.pow_mul]
  rw [dataOrder_dataOrder, littleEndian_bytes, hpow, Nat.mod_eq_of_lt v.isLt, BitVec.ofNat_toNat, BitVec.setWidth_eq]

/-- A read depends on memory and the launch alone. -/
theorem memRead_congr {s u : State} (hm : u.mem = s.mem) (hl : u.launch = s.launch) (a : Addr) (n : Nat) :
    memRead u a n = memRead s a n := by
  simp only [memRead, accessFault?, hm, hl]

/-- A read of the bytes a store has written gives the value stored, in either byte order. -/
theorem memRead_setMem_writeBytes {s : State} (hm : s.mem.wf) {a : Addr} {n : Nat} (hn : n ≤ 2 ^ 64)
    (v : BitVec (8 * n)) (ha : accessFault? s a n = none) :
    memRead (s.setMem (s.mem.writeBytes a (dataOrder s.launch.bigEndian (littleEndianBytes n v.toNat)))) a n =
      .ok v := by
  have hread := Memory.readBytes_writeBytes_same hm a
    (bytes := dataOrder s.launch.bigEndian (littleEndianBytes n v.toNat)) (by simpa using hn)
  simp only [dataOrder_length, littleEndianBytes_length] at hread
  have hfault : ∀ m, accessFault? (s.setMem m) a n = none := fun _ => ha
  simp only [memRead, hfault, State.setMem_mem, State.setMem_launch, hread, ofNat_littleEndian_dataOrder]

/-- `R[r]` passed through memory: cut to the access's bytes, loaded at the width, zero-extended (R11, R12). -/
theorem setWidth_bytes_eq_uint (s : State) (w : Width) (r : Reg) :
    (((s.x r).setWidth (8 * w.bytes)).setWidth w.bits).setWidth 64 = BitVec.ofNat 64 (uint s w r) := by
  have hbits : 8 * w.bytes = w.bits := by cases w <;> rfl
  apply BitVec.eq_of_toNat_eq
  simp only [BitVec.toNat_setWidth, BitVec.toNat_ofNat, uint, hbits, Nat.mod_mod]

/-! ### The obligations -/

/-- Settles O3: a step is the end of the run or an instruction, whose effect keeps the invariant. -/
theorem stepKeepsTheInvariant : Obligations.StepKeepsTheInvariant := by
  intro s t hs h
  rcases step_next h with ⟨-, rfl⟩ | ⟨I, i, -, -, hexec⟩
  · exact hs
  · exact (exec_effect hexec).inv hs

/-- Settles O4: a byte of the code region is the launch's, which no step changes; an access that reaches one meets
`accessFault?_of_inCode`. -/
theorem programTextIsImmutable : Obligations.ProgramTextIsImmutable := by
  refine ⟨fun s t h => ?_, fun s addr n k v hk hcode halign => ?_⟩
  · have hl := step_launch h
    refine ⟨hl, fun a ha => ?_⟩
    rw [State.byteAt_of_inCode ha, State.byteAt_of_inCode (hl ▸ ha), hl]
  · have hfault := accessFault?_of_inCode hk hcode halign
    simp only [memRead, memWrite, hfault, and_self]

/-- Settles O16, by `codeByte?_of_codeWord?` at the bytes 0 to 3. -/
theorem fetchedWordIsTheLittleEndianBytes : Obligations.FetchedWordIsTheLittleEndianBytes := by
  intro s I hbegin hword
  have hbyte : ∀ j < 4, s.byteAt (byteAddr s.pc j) = some (I.extractLsb' (8 * j) 8) := fun j hj => by
    obtain ⟨hin, hb⟩ := codeByte?_of_codeWord? hbegin hword hj
    rw [State.byteAt_of_inCode hin, hb]
  have hbyte₀ := hbyte 0 (by decide)
  rw [byteAddr_zero] at hbyte₀
  exact ⟨(codeWord?_eq_some_iff.1 hword).2, _, _, _, _, hbyte₀, hbyte 1 (by decide), hbyte 2 (by decide),
    hbyte 3 (by decide), word_eq_append_bytes I⟩

/-- Settles O60: the load reads the memory the store has written, so `memRead_setMem_writeBytes` gives its value. -/
theorem loadAfterStoreReadsTheStoredValue : Obligations.LoadAfterStoreReadsTheStoredValue := by
  intro s t u w rt n rd n' imm12 imm12' hwf hstore hmem hlaunch haddr
  obtain ⟨hfault, rfl⟩ := finishStore_next hstore
  have hread := (memRead_congr hmem hlaunch _ _).trans
    (memRead_setMem_writeBytes hwf (by cases w <;> decide) _ hfault)
  refine ⟨(u.writeReg w rd (((s.x rt).setWidth (8 * w.bytes)).setWidth w.bits)).advance, ?_, ?_⟩
  · rw [exec, execLdr, haddr, hread]
    rfl
  · rw [State.advance_x, State.writeReg_x_same, setWidth_bytes_eq_uint]

/-- Settles O2: the memory of the reset state lists no byte. -/
theorem resetMeetsTheInvariant : Obligations.ResetMeetsTheInvariant :=
  ⟨⟨.nil, List.forall_mem_nil _⟩, List.forall_mem_nil _⟩

end Sys2Proof.Machine
end

section
/-! PROOFS of the encoding family (30_encoding.md), part 1: the decoder as a table of the rows of R72, R68 and R69,
and each row as a mask and a value. -/

namespace Sys2Proof

/-- The rows of R72 and, at the end, those of R68 and R69. -/
inductive Row where
  | b | bl | bCond | br | blr | cmr | cmi | asi | asr | acr | mul | madd | udiv | sdiv | mvr | log
  | ldr | str | strb | strh | mvi | lslr | lsrr | shi
deriving DecidableEq

namespace Row

/-- The test of the row in the decoder. -/
def test : Row → InstrWord → Bool
  | b => rowB
  | bl => rowBl
  | bCond => rowBCond
  | br => rowBr
  | blr => rowBlr
  | cmr => rowCmr
  | cmi => rowCmi
  | asi => rowAsi
  | asr => rowAsr
  | acr => rowAcr
  | mul => rowMul
  | madd => rowMadd
  | udiv => rowUdiv
  | sdiv => rowSdiv
  | mvr => rowMvr
  | log => rowLog
  | ldr => rowLdr
  | str => rowStr
  | strb => rowStrb
  | strh => rowStrh
  | mvi => rowMvi
  | lslr => rowLslr
  | lsrr => rowLsrr
  | shi => rowShi

/-- The decoder's answer on a word it takes by the row. -/
def outcome (p : DecodeParams) (I : InstrWord) : Row → Except Unallocated Instr
  | b => .ok (.b (field I 0 26))
  | bl => .ok (.bl (field I 0 26))
  | bCond =>
    match condOf p.cond1111 (field I 0 4) with
    | some c => .ok (.bCond c (field I 5 19))
    | none => .error .condition1111
  | br => withReg I 5 .br
  | blr => withReg I 5 .blr
  | cmr => withRegs I 5 16 (.cmpReg (widthAt I 31))
  | cmi => withReg I 5 fun n => .cmpImm (widthAt I 31) n (field I 10 12)
  | asi => withRegs I 0 5 (asiOf (bit I 30) (bit I 29) (widthAt I 31) (field I 10 12))
  | asr => withDnm I (asrOf (bit I 30) (bit I 29) (widthAt I 31))
  | acr => withDnm I (acrOf (bit I 30) (bit I 29) (widthAt I 31))
  | mul => withDnm I (.mul (widthAt I 31))
  | madd => withDnma I (.madd (widthAt I 31))
  | udiv => withDnm I (.udiv (widthAt I 31))
  | sdiv => withDnm I (.sdiv (widthAt I 31))
  | mvr => withRegs I 0 16 (.movReg (widthAt I 31))
  | log =>
    match logOf (bit I 30) (bit I 29) (bit I 21) (widthAt I 31) with
    | some k => withDnm I k
    | none => .error .logicalPair
  | ldr => withRegs I 0 5 fun t n => .ldr (widthAt I 30) t n (field I 10 12)
  | str => withRegs I 0 5 fun t n => .str (widthAt I 30) t n (field I 10 12)
  | strb => withRegs I 0 5 fun t n => .strb t n (field I 10 12)
  | strh => withRegs I 0 5 fun t n => .strh t n (field I 10 12)
  | mvi => withReg I 0 fun d => .movImm d (field I 5 16)
  | lslr => if p.admitShiftEncodings then withDnm I (.lslReg (widthAt I 31)) else .error .shiftNotAdmitted
  | lsrr => if p.admitShiftEncodings then withDnm I (.lsrReg (widthAt I 31)) else .error .shiftNotAdmitted
  | shi =>
    if p.admitShiftEncodings then
      match shiftImmOf (widthAt I 31) (field I 16 6) (field I 10 6) with
      | some k => withRegs I 0 5 k
      | none => .error .bitFieldMove
    else .error .shiftNotAdmitted

/-- The rows in the decoder's order. -/
def order : List Row :=
  [b, bl, bCond, br, blr, cmr, cmi, asi, asr, acr, mul, madd, udiv, sdiv, mvr, log, ldr, str, strb, strh, mvi,
    lslr, lsrr, shi]

theorem mem_order (r : Row) : r ∈ order := by cases r <;> decide

/-- The first row of a list that accepts the word decides; a word of no row is unallocated. -/
def firstMatch (p : DecodeParams) (I : InstrWord) (rows : List Row) : Except Unallocated Instr :=
  rows.foldr (fun r rest => if r.test I then r.outcome p I else rest) (.error .noFormat)

theorem decodeShift_eq_firstMatch (p : DecodeParams) (I : InstrWord) :
    decodeShift p I = firstMatch p I [lslr, lsrr, shi] := by
  simp only [decodeShift, firstMatch, List.foldr, test, outcome]
  by_cases hlsl : rowLslr I = true
  · simp only [hlsl, Bool.true_or, if_true]
  by_cases hlsr : rowLsrr I = true
  · simp only [hlsl, hlsr, Bool.true_or, Bool.or_true, Bool.false_eq_true, if_true, if_false]
  · simp only [hlsl, hlsr, Bool.or_false, Bool.false_or, Bool.false_eq_true, if_false] <;> rfl

theorem decode_eq_firstMatch (p : DecodeParams) (I : InstrWord) : decode p I = firstMatch p I order := by
  simp only [decode, decodeShift_eq_firstMatch, firstMatch, order, List.foldr, test, outcome] <;> rfl

/-- The mask of the row: the bits it fixes (R72, R68, R69). -/
def mask : Row → InstrWord
  | b | bl => 0xFC000000#32
  | bCond => 0xFF000010#32
  | br | blr => 0xFFFFFC1F#32
  | cmr => 0x7FE0FC1F#32
  | cmi => 0x7FC0001F#32
  | asi => 0x1FC00000#32
  | asr | acr => 0x1FE0FC00#32
  | mul | udiv | sdiv | lslr | lsrr => 0x7FE0FC00#32
  | madd => 0x7FE08000#32
  | mvr => 0x7FE0FFE0#32
  | log => 0x1FC0FC00#32
  | ldr | str => 0xBFC00000#32
  | strb | strh => 0xFFC00000#32
  | mvi => 0xFFE00000#32
  | shi => 0x7F800000#32

/-- The values of the bits it fixes. -/
def value : Row → InstrWord
  | b => 0x14000000#32
  | bl => 0x94000000#32
  | bCond => 0x54000000#32
  | br => 0xD61F0000#32
  | blr => 0xD63F0000#32
  | cmr => 0x6B00001F#32
  | cmi => 0x7100001F#32
  | asi => 0x11000000#32
  | asr => 0x0B000000#32
  | acr => 0x1A000000#32
  | mul => 0x1B007C00#32
  | madd => 0x1B000000#32
  | udiv => 0x1AC00800#32
  | sdiv => 0x1AC00C00#32
  | mvr => 0x2A0003E0#32
  | log => 0x0A000000#32
  | ldr => 0xB9400000#32
  | str => 0xB9000000#32
  | strb => 0x39000000#32
  | strh => 0x79000000#32
  | mvi => 0x52800000#32
  | lslr => 0x1AC02000#32
  | lsrr => 0x1AC02400#32
  | shi => 0x53000000#32

end Row

/-- The word with `v` at bit `lo` and zeros elsewhere. -/
def slice (lo : Nat) {len : Nat} (v : BitVec len) : InstrWord :=
  v.setWidth 32 <<< lo

/-- The test of a field is a mask-and-match test. -/
theorem field_beq_eq_mask (I : InstrWord) {lo len : Nat} (h : lo + len ≤ 32) (v : BitVec len) :
    (field I lo len == v) = (I &&& slice lo (BitVec.allOnes len) == slice lo v) := by
  rw [Bool.eq_iff_iff, beq_iff_eq, beq_iff_eq, BitVec.eq_of_getLsbD_eq_iff, BitVec.eq_of_getLsbD_eq_iff]
  simp only [field, slice, BitVec.getLsbD_extractLsb', BitVec.getLsbD_and, BitVec.getLsbD_shiftLeft,
    BitVec.getLsbD_setWidth, BitVec.getLsbD_allOnes]
  constructor
  · intro hfield j hj
    by_cases hlo : j < lo
    · simp [hlo]
    · by_cases hlen : j - lo < len
      · have := hfield (j - lo) hlen
        grind
      · simp [hlen, BitVec.getLsbD_of_ge v (j - lo) (by omega)]
  · intro hmask j hj
    have := hmask (lo + j) (by omega)
    rw [Nat.add_sub_cancel_left] at this
    clear hmask
    grind

/-- Two mask-and-match tests of different bits are one. -/
theorem mask_and_mask (I : InstrWord) {m m' v v' : InstrWord} (hd : m &&& m' = 0#32) (hv : v &&& m = v)
    (hv' : v' &&& m' = v') : (I &&& m == v && I &&& m' == v') = (I &&& (m ||| m') == v ||| v') := by
  rw [Bool.eq_iff_iff, Bool.and_eq_true, beq_iff_eq, beq_iff_eq, beq_iff_eq]
  simp only [BitVec.eq_of_getLsbD_eq_iff, BitVec.getLsbD_and, BitVec.getLsbD_or, BitVec.getLsbD_zero] at *
  grind

namespace Row

theorem test_eq_mask (I : InstrWord) {r : Row} (hr : r ≠ shi) : r.test I = (I &&& r.mask == r.value) := by
  cases r
  case shi => exact absurd rfl hr
  case b | bl | asi | strb | strh | mvi => exact field_beq_eq_mask I (by decide) _
  case cmr =>
    rw [test, rowCmr, field_beq_eq_mask I (by decide), field_beq_eq_mask I (by decide), field_beq_eq_mask I (by decide),
      mask_and_mask I (by decide) (by decide) (by decide), mask_and_mask I (by decide) (by decide) (by decide)]
    rfl
  all_goals
    refine (congrArg₂ and (field_beq_eq_mask I (by decide) _) (field_beq_eq_mask I (by decide) _)).trans ?_
    exact mask_and_mask I (by decide) (by decide) (by decide)

theorem shi_test_eq_mask (I : InstrWord) :
    shi.test I = (I &&& shi.mask == shi.value && I.getLsbD 22 == I.getLsbD 31) := by
  have hwidth : (field I 22 1 == field I 31 1) = (I.getLsbD 22 == I.getLsbD 31) := by
    rw [Bool.eq_iff_iff, beq_iff_eq, beq_iff_eq]
    simp [field, BitVec.eq_of_getLsbD_eq_iff]
  rw [test, rowShi, hwidth, field_beq_eq_mask I (by decide)]
  rfl

theorem and_mask_of_test {I : InstrWord} {r : Row} (h : r.test I = true) : I &&& r.mask = r.value := by
  by_cases hr : r = shi
  · rw [hr, shi_test_eq_mask, Bool.and_eq_true, beq_iff_eq] at h
    exact hr ▸ h.1
  · rwa [test_eq_mask I hr, beq_iff_eq] at h

/-- The fixed bits of a field are those of the row. -/
theorem field_and_mask_of_test {I : InstrWord} {r : Row} (h : r.test I = true) (lo len : Nat) :
    field I lo len &&& field r.mask lo len = field r.value lo len := by
  rw [← and_mask_of_test h, field, field, field, BitVec.extractLsb'_and]

end Row

/-- Settles O7, row by row: each slice is a mask-and-match test, and the slices of a row are of different bits. -/
theorem decoderRowsAreMaskAndMatch : Obligations.DecoderRowsAreMaskAndMatch := by
  intro I
  have hmask (r : Row) (hr : r ≠ .shi) := Row.test_eq_mask I hr
  exact ⟨hmask .b (by decide), hmask .bl (by decide), hmask .bCond (by decide), hmask .br (by decide),
    hmask .blr (by decide), hmask .cmr (by decide), hmask .cmi (by decide), hmask .asi (by decide),
    hmask .asr (by decide), hmask .acr (by decide), hmask .mul (by decide), hmask .madd (by decide),
    hmask .udiv (by decide), hmask .sdiv (by decide), hmask .mvr (by decide), hmask .log (by decide),
    hmask .ldr (by decide), hmask .str (by decide), hmask .strb (by decide), hmask .strh (by decide),
    hmask .mvi (by decide), hmask .lslr (by decide), hmask .lsrr (by decide), Row.shi_test_eq_mask I⟩

end Sys2Proof
end

section
/-! PROOFS of the encoding family (30_encoding.md), part 2: the rows exclude one another but for the nested pairs, so
the decoder answers an instruction exactly where some row does (R70 to R72). -/

namespace Sys2Proof

/-! ### The operands of a row -/

section Operands

variable {I : InstrWord} {i : Instr}

theorem withReg_eq_ok_iff {lo : Nat} {k : Reg → Instr} :
    withReg I lo k = .ok i ↔ ∃ r, reg? I lo = some r ∧ k r = i := by
  unfold withReg
  cases reg? I lo <;> simp

theorem withRegs_eq_ok_iff {lo₁ lo₂ : Nat} {k : Reg → Reg → Instr} :
    withRegs I lo₁ lo₂ k = .ok i ↔ ∃ r₁ r₂, reg? I lo₁ = some r₁ ∧ reg? I lo₂ = some r₂ ∧ k r₁ r₂ = i := by
  unfold withRegs
  cases reg? I lo₁ <;> cases reg? I lo₂ <;> simp

theorem withDnm_eq_ok_iff {k : Reg → Reg → Reg → Instr} :
    withDnm I k = .ok i ↔
      ∃ d n m, reg? I 0 = some d ∧ reg? I 5 = some n ∧ reg? I 16 = some m ∧ k d n m = i := by
  unfold withDnm
  cases reg? I 0 <;> cases reg? I 5 <;> cases reg? I 16 <;> simp

theorem withDnma_eq_ok_iff {k : Reg → Reg → Reg → Reg → Instr} :
    withDnma I k = .ok i ↔
      ∃ d n m a, reg? I 0 = some d ∧ reg? I 5 = some n ∧ reg? I 16 = some m ∧ reg? I 10 = some a ∧
        k d n m a = i := by
  unfold withDnma
  cases reg? I 0 <;> cases reg? I 5 <;> cases reg? I 16 <;> cases reg? I 10 <;> simp

theorem reg?_ne_none_of_withReg {lo : Nat} {k : Reg → Instr} (h : withReg I lo k = .ok i) :
    ∀ l ∈ [lo], reg? I l ≠ none := by
  obtain ⟨r, hr, -⟩ := withReg_eq_ok_iff.1 h
  simp [hr]

theorem reg?_ne_none_of_withRegs {lo₁ lo₂ : Nat} {k : Reg → Reg → Instr} (h : withRegs I lo₁ lo₂ k = .ok i) :
    ∀ l ∈ [lo₂, lo₁], reg? I l ≠ none := by
  obtain ⟨r₁, r₂, hr₁, hr₂, -⟩ := withRegs_eq_ok_iff.1 h
  simp [hr₁, hr₂]

theorem reg?_ne_none_of_withDnm {k : Reg → Reg → Reg → Instr} (h : withDnm I k = .ok i) :
    ∀ l ∈ [16, 5, 0], reg? I l ≠ none := by
  obtain ⟨d, n, m, hd, hn, hm, -⟩ := withDnm_eq_ok_iff.1 h
  simp [hd, hn, hm]

theorem reg?_ne_none_of_withDnma {k : Reg → Reg → Reg → Reg → Instr} (h : withDnma I k = .ok i) :
    ∀ l ∈ [16, 10, 5, 0], reg? I l ≠ none := by
  obtain ⟨d, n, m, a, hd, hn, hm, ha, -⟩ := withDnma_eq_ok_iff.1 h
  simp [hd, hn, hm, ha]

end Operands

namespace Row

variable {p : DecodeParams} {I : InstrWord} {i : Instr}

theorem log_outcome_eq_ok_iff :
    log.outcome p I = .ok i ↔
      ∃ k, logOf (bit I 30) (bit I 29) (bit I 21) (widthAt I 31) = some k ∧ withDnm I k = .ok i := by
  rw [outcome]
  split <;> rename_i hk <;> simp [hk]

theorem lslr_outcome_eq_ok_iff :
    lslr.outcome p I = .ok i ↔ p.admitShiftEncodings = true ∧ withDnm I (.lslReg (widthAt I 31)) = .ok i := by
  rw [outcome]
  split <;> rename_i hadmit <;> simp [hadmit]

theorem lsrr_outcome_eq_ok_iff :
    lsrr.outcome p I = .ok i ↔ p.admitShiftEncodings = true ∧ withDnm I (.lsrReg (widthAt I 31)) = .ok i := by
  rw [outcome]
  split <;> rename_i hadmit <;> simp [hadmit]

theorem shi_outcome_eq_ok_iff :
    shi.outcome p I = .ok i ↔
      p.admitShiftEncodings = true ∧
        ∃ k, shiftImmOf (widthAt I 31) (field I 16 6) (field I 10 6) = some k ∧ withRegs I 0 5 k = .ok i := by
  rw [outcome]
  split <;> rename_i hadmit
  · split <;> rename_i hk <;> simp [hadmit, hk]
  · simp [hadmit]

/-- The places of the free register fields of the row (R71). -/
def free : Row → List Nat
  | br | blr | cmi => [5]
  | cmr => [16, 5]
  | asi | ldr | str | strb | strh | shi => [5, 0]
  | asr | acr | mul | udiv | sdiv | log | lslr | lsrr => [16, 5, 0]
  | madd => [16, 10, 5, 0]
  | mvr => [16, 0]
  | mvi => [0]
  | b | bl | bCond => []

/-- Where the row answers an instruction, each free register field names a register. -/
theorem reg?_ne_none_of_outcome_ok {r : Row} (h : r.outcome p I = .ok i) : ∀ lo ∈ r.free, reg? I lo ≠ none := by
  cases r
  case b | bl | bCond => exact List.forall_mem_nil _
  case br | blr | cmi | mvi => exact reg?_ne_none_of_withReg h
  case cmr | asi | ldr | str | strb | strh | mvr => exact reg?_ne_none_of_withRegs h
  case asr | acr | mul | udiv | sdiv => exact reg?_ne_none_of_withDnm h
  case madd => exact reg?_ne_none_of_withDnma h
  case log => obtain ⟨k, -, h⟩ := log_outcome_eq_ok_iff.1 h; exact reg?_ne_none_of_withDnm h
  case lslr => exact reg?_ne_none_of_withDnm (lslr_outcome_eq_ok_iff.1 h).2
  case lsrr => exact reg?_ne_none_of_withDnm (lsrr_outcome_eq_ok_iff.1 h).2
  case shi => obtain ⟨-, k, -, h⟩ := shi_outcome_eq_ok_iff.1 h; exact reg?_ne_none_of_withRegs h

/-! ### Rows that exclude one another, and nested rows -/

/-- The rows differ in a bit both fix. -/
def clash (r q : Row) : Bool :=
  r.value &&& q.mask != q.value &&& r.mask

theorem test_false_of_clash {r q : Row} (hclash : r.clash q = true) (h : r.test I = true) : q.test I = false := by
  by_contra hq
  refine absurd ?_ (bne_iff_ne.1 hclash)
  rw [← and_mask_of_test h, ← and_mask_of_test (Bool.not_eq_false _ ▸ hq), BitVec.and_assoc, BitVec.and_assoc,
    BitVec.and_comm r.mask]

/-- The row nested in the row (R72, R92, R152). -/
def inner : Row → Option Row
  | asi => some cmi
  | asr => some cmr
  | madd => some mul
  | log => some mvr
  | _ => none

theorem test_of_inner {r q : Row} (hq : r.inner = some q) (h : q.test I = true) : r.test I = true := by
  have hsub : r ≠ shi ∧ q.mask &&& r.mask = r.mask ∧ q.value &&& r.mask = r.value := by
    cases r <;> cases hq <;> decide
  obtain ⟨hshi, hmask, hvalue⟩ := hsub
  rw [test_eq_mask I hshi, beq_iff_eq, ← hvalue, ← and_mask_of_test h, BitVec.and_assoc, hmask]

/-- A nested row fixes at 31 a field that is free in the outer row. -/
theorem reg?_eq_none_of_inner {r q : Row} (hq : r.inner = some q) (h : q.test I = true) :
    ∃ lo ∈ r.free, reg? I lo = none := by
  have hfixed : ∃ lo ∈ r.free, field q.mask lo 5 = BitVec.allOnes 5 ∧ field q.value lo 5 = 31#5 := by
    cases r <;> cases hq <;> decide
  obtain ⟨lo, hlo, hmask, hvalue⟩ := hfixed
  refine ⟨lo, hlo, reg?_eq_none_iff.2 ?_⟩
  rw [← hvalue, ← field_and_mask_of_test h, hmask, BitVec.and_allOnes]

/-- Each row before `r` in the decoder's order clashes with `r` or is nested in it. -/
theorem order_pairwise : order.Pairwise fun q r => r.clash q = true ∨ r.inner = some q := by decide

/-- The rows that are nested in no other, in the order of `Claims.outerRows`. -/
def outermost : List Row :=
  [b, bl, bCond, br, blr, asi, asr, acr, madd, udiv, sdiv, log, ldr, str, strb, strh, mvi, lslr, lsrr, shi]

theorem outermost_map_test : outermost.map test = Claims.outerRows := rfl

theorem outermost_pairwise : outermost.Pairwise fun r q => r.clash q = true := by decide

/-! ### The decoder, row by row -/

theorem firstMatch_eq_outcome {r : Row} {rows : List Row}
    (hrows : rows.Pairwise fun q r => r.clash q = true ∨ r.inner = some q) (hmem : r ∈ rows) (h : r.test I = true)
    (hinner : ∀ q, r.inner = some q → q.test I = false) : firstMatch p I rows = r.outcome p I := by
  induction rows with
  | nil => cases hmem
  | cons q rows ih =>
    obtain ⟨hq, hrows⟩ := List.pairwise_cons.1 hrows
    obtain rfl | hmem := List.mem_cons.1 hmem
    · exact if_pos h
    · have hfalse : q.test I = false := (hq r hmem).elim (test_false_of_clash · h) (hinner q)
      exact (if_neg (Bool.not_eq_true _ ▸ hfalse)).trans (ih hrows hmem)

theorem outcome_ok_of_firstMatch_ok {rows : List Row} (h : firstMatch p I rows = .ok i) :
    ∃ r : Row, r.test I = true ∧ r.outcome p I = .ok i := by
  induction rows with
  | nil => cases h
  | cons r rows ih =>
    rw [firstMatch, List.foldr_cons] at h
    split at h
    · exact ⟨r, ‹_›, h⟩
    · exact ih h

/-- A row decides on the words it accepts, but for those of the row nested in it. -/
theorem decode_eq_outcome {r : Row} (h : r.test I = true) (hinner : ∀ q, r.inner = some q → q.test I = false) :
    decode p I = r.outcome p I :=
  (decode_eq_firstMatch p I).trans (firstMatch_eq_outcome order_pairwise (mem_order r) h hinner)

/-- The decoder answers an instruction exactly where some row that accepts the word does: on the words of a nested
row the outer row answers none. -/
theorem decode_ok_iff : decode p I = .ok i ↔ ∃ r : Row, r.test I = true ∧ r.outcome p I = .ok i := by
  constructor
  · rw [decode_eq_firstMatch]
    exact outcome_ok_of_firstMatch_ok
  · rintro ⟨r, h, hok⟩
    refine (decode_eq_outcome h fun q hq => ?_).trans hok
    by_contra hnested
    obtain ⟨lo, hlo, hnone⟩ := reg?_eq_none_of_inner hq (Bool.not_eq_false _ ▸ hnested)
    exact reg?_ne_none_of_outcome_ok hok lo hlo hnone

/-- What a word of a row with no row nested in it decodes to is the row's answer. -/
theorem outcome_ok_of_decode_ok {r : Row} (hinner : r.inner = none) (h : r.test I = true) (hok : decode p I = .ok i) :
    r.outcome p I = .ok i := by
  rw [← decode_eq_outcome h (by simp [hinner]), hok]

/-- 31 in a free register field of the row that decides makes the word unallocated (R71). -/
theorem decode_error_of_field31 {r : Row} (h : r.test I = true) (hinner : ∀ q, r.inner = some q → q.test I = false)
    (h31 : ∃ lo ∈ r.free, field I lo 5 = 31#5) : ∃ e, decode p I = .error e := by
  obtain ⟨lo, hlo, h31⟩ := h31
  rw [decode_eq_outcome h hinner]
  cases hok : r.outcome p I with
  | error e => exact ⟨e, rfl⟩
  | ok i => exact absurd (reg?_eq_none_iff.2 h31) (reg?_ne_none_of_outcome_ok hok lo hlo)

end Row

/-- Settles O8: two outer rows differ in a bit both fix, and a nested row comes before its outer row. -/
theorem decoderRowsAreDisjointButForTheNestedPairs : Obligations.DecoderRowsAreDisjointButForTheNestedPairs := by
  refine ⟨?_, fun I => Row.test_of_inner (r := .asr) rfl, fun I => Row.test_of_inner (r := .asi) rfl,
    fun I => Row.test_of_inner (r := .madd) rfl, fun I => Row.test_of_inner (r := .log) rfl,
    fun p I i hd => ⟨fun h => ?cmr, fun h => ?cmi, fun h => ?mul, fun h => ?mvr⟩⟩
  · rw [← Row.outermost_map_test, List.pairwise_map]
    exact Row.outermost_pairwise.imp fun hclash I => Row.test_false_of_clash hclash
  case cmr =>
    obtain ⟨n, m, -, -, rfl⟩ := withRegs_eq_ok_iff.1 (Row.outcome_ok_of_decode_ok (r := .cmr) rfl h hd)
    exact ⟨_, n, m, rfl⟩
  case cmi =>
    obtain ⟨n, -, rfl⟩ := withReg_eq_ok_iff.1 (Row.outcome_ok_of_decode_ok (r := .cmi) rfl h hd)
    exact ⟨_, n, _, rfl⟩
  case mul =>
    obtain ⟨d, n, m, -, -, -, rfl⟩ := withDnm_eq_ok_iff.1 (Row.outcome_ok_of_decode_ok (r := .mul) rfl h hd)
    exact ⟨_, d, n, m, rfl⟩
  case mvr =>
    obtain ⟨d, m, -, -, rfl⟩ := withRegs_eq_ok_iff.1 (Row.outcome_ok_of_decode_ok (r := .mvr) rfl h hd)
    exact ⟨_, d, m, rfl⟩

/-- Settles O10, row by row of R71: the fields named there are the free ones of the row that decides. -/
theorem registerField31IsUnallocated : Obligations.RegisterField31IsUnallocated := by
  intro p I
  dsimp only
  intro h
  have error {r : Row} (hrow : r.test I = true) (hinner : r.inner = none)
      (h31 : ∃ lo ∈ r.free, field I lo 5 = 31#5) : ∃ e, decode p I = .error e :=
    Row.decode_error_of_field31 hrow (by simp [hinner]) h31
  have error_outer {r q : Row} (hrow : r.test I = true) (hinner : r.inner = some q) (hnested : ¬ q.test I = true)
      (h31 : ∃ lo ∈ r.free, field I lo 5 = 31#5) : ∃ e, decode p I = .error e :=
    Row.decode_error_of_field31 hrow (by simpa [hinner] using hnested) h31
  obtain ⟨h | h, h31⟩ | ⟨h, h31⟩ | ⟨h, h31⟩ | ⟨h, hn, h31⟩ | ⟨h, hn, h31⟩ | ⟨h, h31⟩ | ⟨h, h31⟩ | ⟨h, hn, h31⟩ |
    ⟨h | h, h31⟩ | ⟨h, hn, h31⟩ | ⟨h, h31⟩ | ⟨h | h | h | h, h31⟩ | ⟨h, h31⟩ | ⟨h | h, h31⟩ | ⟨h, h31⟩ := h
  · exact error (r := .br) h rfl (by simpa [Row.free, field] using h31)
  · exact error (r := .blr) h rfl (by simpa [Row.free, field] using h31)
  · exact error (r := .cmr) h rfl (by simpa [Row.free, field] using h31)
  · exact error (r := .cmi) h rfl (by simpa [Row.free, field] using h31)
  · exact error_outer (r := .asi) h rfl hn (by simpa [Row.free, field] using h31)
  · exact error_outer (r := .asr) h rfl hn (by simpa [Row.free, field] using h31)
  · exact error (r := .acr) h rfl (by simpa [Row.free, field] using h31)
  · exact error (r := .mul) h rfl (by simpa [Row.free, field] using h31)
  · exact error_outer (r := .madd) h rfl hn (by simpa [Row.free, field] using h31)
  · exact error (r := .udiv) h rfl (by simpa [Row.free, field] using h31)
  · exact error (r := .sdiv) h rfl (by simpa [Row.free, field] using h31)
  · exact error_outer (r := .log) h rfl hn (by simpa [Row.free, field] using h31)
  · exact error (r := .mvr) h rfl (by simpa [Row.free, field] using h31)
  · exact error (r := .ldr) h rfl (by simpa [Row.free, field] using h31)
  · exact error (r := .str) h rfl (by simpa [Row.free, field] using h31)
  · exact error (r := .strb) h rfl (by simpa [Row.free, field] using h31)
  · exact error (r := .strh) h rfl (by simpa [Row.free, field] using h31)
  · exact error (r := .mvi) h rfl (by simpa [Row.free, field] using h31)
  · exact error (r := .lslr) h rfl (by simpa [Row.free, field] using h31)
  · exact error (r := .lsrr) h rfl (by simpa [Row.free, field] using h31)
  · exact error (r := .shi) h rfl (by simpa [Row.free, field] using h31)

end Sys2Proof
end

section
/-! PROOFS of the encoding family (30_encoding.md), part 3: the row of an instruction; the classes of R51 and the
default of R67. -/

namespace Sys2Proof

open Sys2Proof.Laws Sys2Proof.Claims

/-- The row of R72 (of R68, R69) the words of an instruction belong to. -/
def Instr.row : Instr → Row
  | .b _ => .b
  | .bl _ => .bl
  | .bCond _ _ => .bCond
  | .br _ => .br
  | .blr _ => .blr
  | .cmpReg _ _ _ => .cmr
  | .cmpImm _ _ _ => .cmi
  | .addImm _ _ _ _ | .addsImm _ _ _ _ | .subImm _ _ _ _ | .subsImm _ _ _ _ => .asi
  | .addReg _ _ _ _ | .addsReg _ _ _ _ | .subReg _ _ _ _ | .subsReg _ _ _ _ => .asr
  | .adc _ _ _ _ | .adcs _ _ _ _ | .sbc _ _ _ _ | .sbcs _ _ _ _ => .acr
  | .mul _ _ _ _ => .mul
  | .madd _ _ _ _ _ => .madd
  | .udiv _ _ _ _ => .udiv
  | .sdiv _ _ _ _ => .sdiv
  | .and _ _ _ _ | .ands _ _ _ _ | .orr _ _ _ _ | .orn _ _ _ _ | .eor _ _ _ _ | .eon _ _ _ _ => .log
  | .ldr _ _ _ _ => .ldr
  | .str _ _ _ _ => .str
  | .strb _ _ _ => .strb
  | .strh _ _ _ => .strh
  | .movReg _ _ _ => .mvr
  | .movImm _ _ => .mvi
  | .lslReg _ _ _ _ => .lslr
  | .lsrReg _ _ _ _ => .lsrr
  | .lslImm _ _ _ _ | .lsrImm _ _ _ _ => .shi

namespace Instr

theorem row_test (i : Instr) : i.row.test = RowAccepts.rowOf i := by cases i <;> rfl

theorem rowOf_encode : ∀ i : Instr, RowAccepts.Statement i
  | .b _ => RowAccepts.b _
  | .bCond _ _ => RowAccepts.bCond _ _
  | .br _ => RowAccepts.br _
  | .bl _ => RowAccepts.bl _
  | .blr _ => RowAccepts.blr _
  | .cmpReg _ _ _ => RowAccepts.cmpReg _ _ _
  | .cmpImm _ _ _ => RowAccepts.cmpImm _ _ _
  | .addImm _ _ _ _ => RowAccepts.addImm _ _ _ _
  | .addsImm _ _ _ _ => RowAccepts.addsImm _ _ _ _
  | .subImm _ _ _ _ => RowAccepts.subImm _ _ _ _
  | .subsImm _ _ _ _ => RowAccepts.subsImm _ _ _ _
  | .addReg _ _ _ _ => RowAccepts.addReg _ _ _ _
  | .addsReg _ _ _ _ => RowAccepts.addsReg _ _ _ _
  | .subReg _ _ _ _ => RowAccepts.subReg _ _ _ _
  | .subsReg _ _ _ _ => RowAccepts.subsReg _ _ _ _
  | .adc _ _ _ _ => RowAccepts.adc _ _ _ _
  | .adcs _ _ _ _ => RowAccepts.adcs _ _ _ _
  | .sbc _ _ _ _ => RowAccepts.sbc _ _ _ _
  | .sbcs _ _ _ _ => RowAccepts.sbcs _ _ _ _
  | .mul _ _ _ _ => RowAccepts.mul _ _ _ _
  | .madd _ _ _ _ _ => RowAccepts.madd _ _ _ _ _
  | .udiv _ _ _ _ => RowAccepts.udiv _ _ _ _
  | .sdiv _ _ _ _ => RowAccepts.sdiv _ _ _ _
  | .and _ _ _ _ => RowAccepts.and _ _ _ _
  | .ands _ _ _ _ => RowAccepts.ands _ _ _ _
  | .orr _ _ _ _ => RowAccepts.orr _ _ _ _
  | .orn _ _ _ _ => RowAccepts.orn _ _ _ _
  | .eor _ _ _ _ => RowAccepts.eor _ _ _ _
  | .eon _ _ _ _ => RowAccepts.eon _ _ _ _
  | .lslImm _ _ _ _ => RowAccepts.lslImm _ _ _ _
  | .lslReg _ _ _ _ => RowAccepts.lslReg _ _ _ _
  | .lsrImm _ _ _ _ => RowAccepts.lsrImm _ _ _ _
  | .lsrReg _ _ _ _ => RowAccepts.lsrReg _ _ _ _
  | .ldr _ _ _ _ => RowAccepts.ldr _ _ _ _
  | .str _ _ _ _ => RowAccepts.str _ _ _ _
  | .strb _ _ _ => RowAccepts.strb _ _ _
  | .strh _ _ _ => RowAccepts.strh _ _ _
  | .movReg _ _ _ => RowAccepts.movReg _ _ _
  | .movImm _ _ => RowAccepts.movImm _ _

/-- The word of an instruction is accepted by its row. -/
theorem row_test_encode {i : Instr} (h : i.wf = true) : i.row.test (encode i) = true := by
  rw [row_test]
  exact rowOf_encode i h

theorem asiOf_row (p s : Bool) (w : Width) (imm12 : BitVec 12) (d n : Reg) : (asiOf p s w imm12 d n).row = .asi := by
  cases p <;> cases s <;> rfl

theorem asrOf_row (p s : Bool) (w : Width) (d n m : Reg) : (asrOf p s w d n m).row = .asr := by
  cases p <;> cases s <;> rfl

theorem acrOf_row (p s : Bool) (w : Width) (d n m : Reg) : (acrOf p s w d n m).row = .acr := by
  cases p <;> cases s <;> rfl

theorem logOf_row {p₁ p₀ q : Bool} {w : Width} {k : Reg → Reg → Reg → Instr} (h : logOf p₁ p₀ q w = some k)
    (d n m : Reg) : (k d n m).row = .log := by
  cases p₁ <;> cases p₀ <;> cases q <;> cases h <;> rfl

end Instr

theorem shiftImmOf_eq_some {w : Width} {immr imms : BitVec 6} {k : Reg → Reg → Instr}
    (h : shiftImmOf w immr imms = some k) :
    immr.toNat < w.bits ∧ imms.toNat < w.bits ∧
      ((imms.toNat = w.bits - 1 ∧ k = fun d n => .lsrImm w d n immr) ∨
        (imms.toNat ≠ w.bits - 1 ∧ immr.toNat = (imms.toNat + 1) % w.bits ∧
          k = fun d n => .lslImm w d n (BitVec.ofNat 6 (w.bits - 1 - imms.toNat)))) := by
  unfold shiftImmOf at h
  split at h
  · cases h
  · refine ⟨by omega, by omega, ?_⟩
    split at h
    · exact .inl ⟨‹_›, (Option.some.inj h).symm⟩
    · split at h
      · exact .inr ⟨‹_›, ‹_›, (Option.some.inj h).symm⟩
      · cases h

/-- A row answers instructions of its own. -/
theorem Row.row_of_outcome_ok {p : DecodeParams} {I : InstrWord} {i : Instr} {r : Row} (h : r.outcome p I = .ok i) :
    i.row = r := by
  cases r
  case b | bl => cases h; rfl
  case bCond =>
    rw [outcome] at h
    split at h <;> cases h
    rfl
  case br | blr | cmi | mvi => obtain ⟨_, _, rfl⟩ := withReg_eq_ok_iff.1 h; rfl
  case cmr | ldr | str | strb | strh | mvr => obtain ⟨_, _, _, _, rfl⟩ := withRegs_eq_ok_iff.1 h; rfl
  case mul | udiv | sdiv => obtain ⟨_, _, _, _, _, _, rfl⟩ := withDnm_eq_ok_iff.1 h; rfl
  case madd => obtain ⟨_, _, _, _, _, _, _, _, rfl⟩ := withDnma_eq_ok_iff.1 h; rfl
  case asi => obtain ⟨_, _, _, _, rfl⟩ := withRegs_eq_ok_iff.1 h; exact Instr.asiOf_row ..
  case asr => obtain ⟨_, _, _, _, _, _, rfl⟩ := withDnm_eq_ok_iff.1 h; exact Instr.asrOf_row ..
  case acr => obtain ⟨_, _, _, _, _, _, rfl⟩ := withDnm_eq_ok_iff.1 h; exact Instr.acrOf_row ..
  case log =>
    obtain ⟨k, hk, h⟩ := log_outcome_eq_ok_iff.1 h
    obtain ⟨_, _, _, _, _, _, rfl⟩ := withDnm_eq_ok_iff.1 h
    exact Instr.logOf_row hk ..
  case lslr => obtain ⟨_, _, _, _, _, _, rfl⟩ := withDnm_eq_ok_iff.1 (lslr_outcome_eq_ok_iff.1 h).2; rfl
  case lsrr => obtain ⟨_, _, _, _, _, _, rfl⟩ := withDnm_eq_ok_iff.1 (lsrr_outcome_eq_ok_iff.1 h).2; rfl
  case shi =>
    obtain ⟨-, k, hk, h⟩ := shi_outcome_eq_ok_iff.1 h
    obtain ⟨_, _, _, _, rfl⟩ := withRegs_eq_ok_iff.1 h
    obtain ⟨-, -, ⟨-, rfl⟩ | ⟨-, -, rfl⟩⟩ := shiftImmOf_eq_some hk <;> rfl

/-- An instruction is decoded from a word of its row, by the row's answer. -/
theorem decode_ok_iff_row {p : DecodeParams} {I : InstrWord} {i : Instr} :
    decode p I = .ok i ↔ i.row.test I = true ∧ i.row.outcome p I = .ok i := by
  rw [Row.decode_ok_iff]
  constructor
  · rintro ⟨r, htest, hok⟩
    obtain rfl := Row.row_of_outcome_ok hok
    exact ⟨htest, hok⟩
  · exact fun h => ⟨_, h⟩

/-! ### Classes (R51) -/

/-- The bits 28:25 an instruction's row fixes have the pattern of its class. -/
theorem classPattern_of_row (i : Instr) :
    ∀ bits : BitVec 4, bits &&& field i.row.mask 25 4 = field i.row.value 25 4 → ClassPattern (classOf i) bits := by
  cases i <;> simp only [Instr.row, classOf, ClassPattern] <;> decide

theorem not_classPattern (c : WordClass) :
    ∀ bits ∈ [0b0000#4, 0b0001#4, 0b0010#4, 0b0011#4, 0b0111#4, 0b1111#4], ¬ ClassPattern c bits := by
  cases c <;> simp only [ClassPattern] <;> decide

/-- Settles O9: the row of the decoded instruction fixes enough of bits 28:25, and the six values meet no pattern. -/
theorem decodedWordsLieInTheirClass : Obligations.DecodedWordsLieInTheirClass := by
  intro p I
  have hclass (i : Instr) (hd : decode p I = .ok i) : ClassPattern (classOf i) (I.extractLsb' 25 4) :=
    classPattern_of_row i _ (Row.field_and_mask_of_test (decode_ok_iff_row.1 hd).1 25 4)
  refine ⟨hclass, fun hbits => ?_⟩
  cases hd : decode p I with
  | error e => exact ⟨e, rfl⟩
  | ok i => exact absurd (hclass i hd) (not_classPattern _ _ hbits)

/-! ### The optional shifts (R67) -/

/-- Without admission the rows of the shifts answer no instruction; no row is nested in them. -/
theorem Instr.shift_row_outcome {p : DecodeParams} (hp : p.admitShiftEncodings = false) {i : Instr}
    (hi : i.isShift = true) (I : InstrWord) :
    i.row.outcome p I = .error .shiftNotAdmitted ∧ i.row.inner = none := by
  cases i
  case lslImm | lslReg | lsrImm | lsrReg => exact ⟨if_neg (by simp [hp]), rfl⟩
  all_goals cases hi

/-- Settles O11: the row of a shift answers `shiftNotAdmitted` on each of its words. -/
theorem shiftWordsAreUnallocatedUnlessAdmitted : Obligations.ShiftWordsAreUnallocatedUnlessAdmitted := by
  intro p hp
  refine ⟨fun I i hd => ?_, fun i hwf hi => ?_⟩
  · by_contra hi
    obtain ⟨-, hok⟩ := decode_ok_iff_row.1 hd
    rw [(Instr.shift_row_outcome hp (Bool.not_eq_false _ ▸ hi) I).1] at hok
    cases hok
  · obtain ⟨herror, hinner⟩ := Instr.shift_row_outcome hp hi (encode i)
    exact ⟨_, (Row.decode_eq_outcome (Instr.row_test_encode hwf) (by simp [hinner])).trans herror⟩

end Sys2Proof
end

section
/-! PROOFS of the encoding family (30_encoding.md), part 4: the word of an instruction, format by format: among the
words of its row it is the one with the operands in its fields (R52 to R69). -/

namespace Sys2Proof

variable {I : InstrWord}

/-! ### Fields as numbers -/

theorem bit_toNat (I : InstrWord) (j : Nat) : (bit I j).toNat = I.toNat / 2 ^ j % 2 := by
  have hbit : bit I j = decide (I.toNat / 2 ^ j % 2 = 1) := by
    rw [bit, Bool.eq_iff_iff, beq_iff_eq, decide_eq_true_eq, ← BitVec.toNat_inj, field_toNat]
    rfl
  rw [hbit]
  obtain h | h := Nat.mod_two_eq_zero_or_one (I.toNat / 2 ^ j)
  all_goals rw [h]; rfl

theorem bit_eq_iff {j : Nat} {b : Bool} : bit I j = b ↔ I.toNat / 2 ^ j % 2 = b.toNat := by
  rw [← bit_toNat]
  cases bit I j <;> cases b <;> decide

theorem widthAt_eq_iff {j : Nat} {w : Width} : widthAt I j = w ↔ I.toNat / 2 ^ j % 2 = w.code := by
  rw [← bit_toNat, widthAt]
  cases bit I j <;> cases w <;> decide

theorem reg?_eq_some_iff {lo : Nat} {r : Reg} : reg? I lo = some r ↔ I.toNat / 2 ^ lo % 2 ^ 5 = r.val := by
  rw [← field_toNat]
  refine ⟨fun h => ?_, reg?_eq_some⟩
  unfold reg? at h
  split at h <;> cases h
  rfl

theorem field_eq_iff {lo len : Nat} {v : BitVec len} : field I lo len = v ↔ I.toNat / 2 ^ lo % 2 ^ len = v.toNat := by
  rw [← field_toNat, BitVec.toNat_inj]

theorem ofNat_eq_iff {k : Nat} (hk : k < 2 ^ 32) : BitVec.ofNat 32 k = I ↔ I.toNat = k := by
  rw [← BitVec.toNat_inj, BitVec.toNat_ofNat, Nat.mod_eq_of_lt hk, eq_comm]

/-- A field all of whose bits the row fixes. -/
theorem Row.div_mod_of_test {r : Row} (h : r.test I = true) (lo len : Nat)
    (hmask : field r.mask lo len = BitVec.allOnes len) :
    I.toNat / 2 ^ lo % 2 ^ len = r.value.toNat / 2 ^ lo % 2 ^ len := by
  rw [← field_toNat, ← field_toNat, ← field_and_mask_of_test h, hmask, BitVec.and_allOnes]

/-! ### The formats with fields `d`, `n` and `m` -/

/-- The width bit 31 and the register fields `d`, `n`, `m` of the word. -/
def ReadsDnm (I : InstrWord) (w : Width) (d n m : Reg) : Prop :=
  widthAt I 31 = w ∧ reg? I 0 = some d ∧ reg? I 5 = some n ∧ reg? I 16 = some m

theorem withDnm_width_eq_ok_iff {i : Instr} {k : Width → Reg → Reg → Reg → Instr} :
    withDnm I (k (widthAt I 31)) = .ok i ↔ ∃ w d n m, ReadsDnm I w d n m ∧ k w d n m = i := by
  rw [withDnm_eq_ok_iff]
  constructor
  · rintro ⟨d, n, m, hd, hn, hm, h⟩
    exact ⟨_, d, n, m, ⟨rfl, hd, hn, hm⟩, h⟩
  · rintro ⟨_, d, n, m, ⟨rfl, hd, hn, hm⟩, h⟩
    exact ⟨d, n, m, hd, hn, hm, h⟩

theorem encodeDnm_eq_iff {base : Nat} (hlow : base % 2 ^ 10 = 0) (hm : base / 2 ^ 16 % 2 ^ 5 = 0) (hlt : base < 2 ^ 31)
    {w : Width} {d n m : Reg} :
    encodeDnm base w d n m = I ↔
      (I.toNat / 2 ^ 21 % 2 ^ 10 = base / 2 ^ 21 ∧ I.toNat / 2 ^ 10 % 2 ^ 6 = base / 2 ^ 10 % 2 ^ 6) ∧
        ReadsDnm I w d n m := by
  have := I.isLt
  have := w.code_lt
  rw [ReadsDnm, encodeDnm, ofNat_eq_iff (by omega), widthAt_eq_iff, reg?_eq_some_iff, reg?_eq_some_iff,
    reg?_eq_some_iff]
  constructor
  · intro h
    omega
  · rintro ⟨⟨_, _⟩, _, _, _, _⟩
    omega

/-- MUL, UDIV, SDIV, LSL and LSR (register): the row fixes all other bits. -/
theorem encodeDnm_value_eq_iff {r : Row} (h : r.test I = true) (hr : r.mask = 0x7FE0FC00#32) {w : Width}
    {d n m : Reg} : encodeDnm r.value.toNat w d n m = I ↔ ReadsDnm I w d n m := by
  have hop := r.div_mod_of_test h 21 10 (by rw [hr]; decide)
  have hfn := r.div_mod_of_test h 10 6 (by rw [hr]; decide)
  have hvalue : r.value.toNat % 2 ^ 10 = 0 ∧ r.value.toNat / 2 ^ 16 % 2 ^ 5 = 0 ∧ r.value.toNat < 2 ^ 31 := by
    cases r <;> cases hr <;> decide
  obtain ⟨hlow, hm, hlt⟩ := hvalue
  rw [encodeDnm_eq_iff hlow hm hlt]
  exact and_iff_right ⟨by omega, hfn⟩

/-- Formats ASR and ACR: the row leaves the bits `p` and `s` (R57, R58). -/
theorem encodeDnm_ps_eq_iff {r : Row} (h : r.test I = true) (hr : r.mask = 0x1FE0FC00#32) {p s : Bool} {w : Width}
    {d n m : Reg} :
    encodeDnm (r.value.toNat + p.toNat * 2 ^ 30 + s.toNat * 2 ^ 29) w d n m = I ↔
      (bit I 30 = p ∧ bit I 29 = s) ∧ ReadsDnm I w d n m := by
  have hop := r.div_mod_of_test h 21 8 (by rw [hr]; decide)
  have hfn := r.div_mod_of_test h 10 6 (by rw [hr]; decide)
  have hvalue : r.value.toNat % 2 ^ 10 = 0 ∧ r.value.toNat / 2 ^ 16 % 2 ^ 5 = 0 ∧ r.value.toNat < 2 ^ 29 := by
    cases r <;> cases hr <;> decide
  obtain ⟨hlow, hm, hlt⟩ := hvalue
  rw [bit_eq_iff, bit_eq_iff]
  cases p <;> cases s <;> simp only [Bool.toNat_true, Bool.toNat_false]
  all_goals
    rw [encodeDnm_eq_iff (by omega) (by omega) (by omega)]
    exact and_congr_left' (by omega)

theorem encode_asrOf_eq_iff (h : Row.asr.test I = true) {p s : Bool} {w : Width} {d n m : Reg} :
    encode (asrOf p s w d n m) = I ↔ (bit I 30 = p ∧ bit I 29 = s) ∧ ReadsDnm I w d n m := by
  rw [← encodeDnm_ps_eq_iff h rfl]
  cases p <;> cases s <;> rfl

theorem encode_acrOf_eq_iff (h : Row.acr.test I = true) {p s : Bool} {w : Width} {d n m : Reg} :
    encode (acrOf p s w d n m) = I ↔ (bit I 30 = p ∧ bit I 29 = s) ∧ ReadsDnm I w d n m := by
  rw [← encodeDnm_ps_eq_iff h rfl]
  cases p <;> cases s <;> rfl

/-- Format LOG: the row leaves the two bits of `p` and `q` (R62). -/
theorem encode_logOf_eq_iff (h : Row.log.test I = true) {p₁ p₀ q : Bool} {k : Reg → Reg → Reg → Instr} {w : Width}
    (hk : logOf p₁ p₀ q w = some k) {d n m : Reg} :
    encode (k d n m) = I ↔ (bit I 30 = p₁ ∧ bit I 29 = p₀ ∧ bit I 21 = q) ∧ ReadsDnm I w d n m := by
  have hop : I.toNat / 2 ^ 22 % 2 ^ 7 = 0b0101000 := Row.log.div_mod_of_test h 22 7 (by decide)
  have hfn : I.toNat / 2 ^ 10 % 2 ^ 6 = 0 := Row.log.div_mod_of_test h 10 6 (by decide)
  have hencode : encode (k d n m) =
      encodeDnm (0x0A000000 + p₁.toNat * 2 ^ 30 + p₀.toNat * 2 ^ 29 + q.toNat * 2 ^ 21) w d n m := by
    cases p₁ <;> cases p₀ <;> cases q <;> cases hk <;> rfl
  have := p₁.toNat_lt
  have := p₀.toNat_lt
  have := q.toNat_lt
  rw [hencode, encodeDnm_eq_iff (by omega) (by omega) (by omega), bit_eq_iff, bit_eq_iff, bit_eq_iff]
  exact and_congr_left' (by omega)

/-- MADD: the row leaves the field `a` (R61). -/
theorem encode_madd_eq_iff (h : Row.madd.test I = true) {w : Width} {d n m a : Reg} :
    encode (.madd w d n m a) = I ↔ reg? I 10 = some a ∧ ReadsDnm I w d n m := by
  have hop : I.toNat / 2 ^ 21 % 2 ^ 10 = 0b0011011000 := Row.madd.div_mod_of_test h 21 10 (by decide)
  have hfn : I.toNat / 2 ^ 15 % 2 ^ 1 = 0 := Row.madd.div_mod_of_test h 15 1 (by decide)
  rw [encode, encodeDnm_eq_iff (by omega) (by omega) (by omega), reg?_eq_some_iff (lo := 10)]
  exact and_congr_left' (by omega)

/-! ### The formats with `imm12` -/

theorem encodeImm12_eq_iff {base : Nat} (hlow : base % 2 ^ 22 = 0) (hlt : base < 2 ^ 31) {w : Width} {d : Nat}
    (hd : d < 2 ^ 5) {n : Reg} {imm12 : BitVec 12} :
    encodeImm12 base w d n imm12 = I ↔
      I.toNat / 2 ^ 22 % 2 ^ 9 = base / 2 ^ 22 ∧ widthAt I 31 = w ∧ I.toNat / 2 ^ 0 % 2 ^ 5 = d ∧ reg? I 5 = some n ∧
        field I 10 12 = imm12 := by
  have := I.isLt
  have := w.code_lt
  rw [encodeImm12, ofNat_eq_iff (by omega), widthAt_eq_iff, reg?_eq_some_iff, field_eq_iff]
  constructor
  · intro h
    omega
  · rintro ⟨_, _, _, _, _⟩
    omega

theorem encode_cmpImm_eq_iff (h : Row.cmi.test I = true) {w : Width} {n : Reg} {imm12 : BitVec 12} :
    encode (.cmpImm w n imm12) = I ↔ widthAt I 31 = w ∧ reg? I 5 = some n ∧ field I 10 12 = imm12 := by
  have hop : I.toNat / 2 ^ 22 % 2 ^ 9 = 0b111000100 := Row.cmi.div_mod_of_test h 22 9 (by decide)
  have hd : I.toNat / 2 ^ 0 % 2 ^ 5 = 31 := Row.cmi.div_mod_of_test h 0 5 (by decide)
  rw [encode, encodeImm12_eq_iff (by decide) (by decide) (by decide)]
  exact (and_iff_right hop).trans (and_congr_right' (and_iff_right hd))

/-- Format ASI: the row leaves the bits `p` and `s` (R56). -/
theorem encode_asiOf_eq_iff (h : Row.asi.test I = true) {p s : Bool} {w : Width} {d n : Reg} {imm12 : BitVec 12} :
    encode (asiOf p s w imm12 d n) = I ↔
      (bit I 30 = p ∧ bit I 29 = s) ∧ widthAt I 31 = w ∧ reg? I 0 = some d ∧ reg? I 5 = some n ∧
        field I 10 12 = imm12 := by
  have hop : I.toNat / 2 ^ 22 % 2 ^ 7 = 0b1000100 := Row.asi.div_mod_of_test h 22 7 (by decide)
  have hencode : encode (asiOf p s w imm12 d n) =
      encodeImm12 (0x11000000 + p.toNat * 2 ^ 30 + s.toNat * 2 ^ 29) w d n imm12 := by
    cases p <;> cases s <;> rfl
  have := p.toNat_lt
  have := s.toNat_lt
  rw [hencode, encodeImm12_eq_iff (by omega) (by omega) (by omega), bit_eq_iff, bit_eq_iff,
    reg?_eq_some_iff (lo := 0)]
  exact and_congr_left' (by omega)

theorem encodeLsi_eq_iff {base : Nat} (hlow : base % 2 ^ 22 = 0) (hlt : base < 2 ^ 32) {t n : Reg}
    {imm12 : BitVec 12} :
    encodeLsi base t n imm12 = I ↔
      I.toNat / 2 ^ 22 = base / 2 ^ 22 ∧ reg? I 0 = some t ∧ reg? I 5 = some n ∧ field I 10 12 = imm12 := by
  have := I.isLt
  rw [encodeLsi, ofNat_eq_iff (by omega), reg?_eq_some_iff, reg?_eq_some_iff, field_eq_iff]
  constructor
  · intro h
    omega
  · rintro ⟨_, _, _, _⟩
    omega

/-- STRB and STRH: the row fixes all other bits. -/
theorem encodeLsi_value_eq_iff {r : Row} (h : r.test I = true) (hr : r.mask = 0xFFC00000#32) {t n : Reg}
    {imm12 : BitVec 12} :
    encodeLsi r.value.toNat t n imm12 = I ↔ reg? I 0 = some t ∧ reg? I 5 = some n ∧ field I 10 12 = imm12 := by
  have hop := r.div_mod_of_test h 22 10 (by rw [hr]; decide)
  have hlow : r.value.toNat % 2 ^ 22 = 0 := by cases r <;> cases hr <;> decide
  have := I.isLt
  have := r.value.isLt
  rw [encodeLsi_eq_iff hlow (by omega)]
  exact and_iff_right (by omega)

/-- LDR and STR: the row leaves the width bit 30 (R64). -/
theorem encodeLsi_width_eq_iff {r : Row} (h : r.test I = true) (hr : r.mask = 0xBFC00000#32) {w : Width} {t n : Reg}
    {imm12 : BitVec 12} :
    encodeLsi (r.value.toNat + w.code * 2 ^ 30) t n imm12 = I ↔
      widthAt I 30 = w ∧ reg? I 0 = some t ∧ reg? I 5 = some n ∧ field I 10 12 = imm12 := by
  have htop := r.div_mod_of_test h 31 1 (by rw [hr]; decide)
  have hop := r.div_mod_of_test h 22 8 (by rw [hr]; decide)
  have hvalue : r.value.toNat % 2 ^ 22 = 0 ∧ r.value.toNat / 2 ^ 30 = 2 := by cases r <;> cases hr <;> decide
  obtain ⟨hlow, hhigh⟩ := hvalue
  have := I.isLt
  have := w.code_lt
  rw [encodeLsi_eq_iff (by omega) (by omega), widthAt_eq_iff]
  exact and_congr_left' (by omega)

/-! ### The other formats -/

/-- B and BL (R53). -/
theorem ofNat_imm26_eq_iff {r : Row} (h : r.test I = true) (hr : r.mask = 0xFC000000#32) {imm26 : BitVec 26} :
    BitVec.ofNat 32 (r.value.toNat + imm26.toNat) = I ↔ field I 0 26 = imm26 := by
  have hop := r.div_mod_of_test h 26 6 (by rw [hr]; decide)
  have hlow : r.value.toNat % 2 ^ 26 = 0 := by cases r <;> cases hr <;> decide
  have := I.isLt
  have := r.value.isLt
  rw [ofNat_eq_iff (by omega), field_eq_iff]
  omega

/-- BR and BLR (R55). -/
theorem ofNat_reg_eq_iff {r : Row} (h : r.test I = true) (hr : r.mask = 0xFFFFFC1F#32) {n : Reg} :
    BitVec.ofNat 32 (r.value.toNat + n.val * 2 ^ 5) = I ↔ reg? I 5 = some n := by
  have hop := r.div_mod_of_test h 10 22 (by rw [hr]; decide)
  have hzero := r.div_mod_of_test h 0 5 (by rw [hr]; decide)
  have hlow : r.value.toNat % 2 ^ 10 = 0 := by cases r <;> cases hr <;> decide
  have := I.isLt
  have := r.value.isLt
  rw [ofNat_eq_iff (by omega), reg?_eq_some_iff]
  omega

theorem encode_bCond_eq_iff (h : Row.bCond.test I = true) {c : Cond} {imm19 : BitVec 19} :
    encode (.bCond c imm19) = I ↔ (field I 0 4).toNat = c.code ∧ field I 5 19 = imm19 := by
  have hop : I.toNat / 2 ^ 24 % 2 ^ 8 = 0b01010100 := Row.bCond.div_mod_of_test h 24 8 (by decide)
  have hzero : I.toNat / 2 ^ 4 % 2 ^ 1 = 0 := Row.bCond.div_mod_of_test h 4 1 (by decide)
  have := I.isLt
  have := c.code_lt
  rw [encode, ofNat_eq_iff (by omega), field_eq_iff, field_toNat]
  omega

theorem encode_cmpReg_eq_iff (h : Row.cmr.test I = true) {w : Width} {n m : Reg} :
    encode (.cmpReg w n m) = I ↔ widthAt I 31 = w ∧ reg? I 5 = some n ∧ reg? I 16 = some m := by
  have hop : I.toNat / 2 ^ 21 % 2 ^ 10 = 0b1101011000 := Row.cmr.div_mod_of_test h 21 10 (by decide)
  have hfn : I.toNat / 2 ^ 10 % 2 ^ 6 = 0 := Row.cmr.div_mod_of_test h 10 6 (by decide)
  have hd : I.toNat / 2 ^ 0 % 2 ^ 5 = 31 := Row.cmr.div_mod_of_test h 0 5 (by decide)
  have := I.isLt
  have := w.code_lt
  rw [encode, ofNat_eq_iff (by omega), widthAt_eq_iff, reg?_eq_some_iff, reg?_eq_some_iff]
  omega

theorem encode_movReg_eq_iff (h : Row.mvr.test I = true) {w : Width} {d m : Reg} :
    encode (.movReg w d m) = I ↔ widthAt I 31 = w ∧ reg? I 0 = some d ∧ reg? I 16 = some m := by
  have hop : I.toNat / 2 ^ 21 % 2 ^ 10 = 0b0101010000 := Row.mvr.div_mod_of_test h 21 10 (by decide)
  have hfn : I.toNat / 2 ^ 5 % 2 ^ 11 = 0b00000011111 := Row.mvr.div_mod_of_test h 5 11 (by decide)
  have := I.isLt
  have := w.code_lt
  rw [encode, ofNat_eq_iff (by omega), widthAt_eq_iff, reg?_eq_some_iff, reg?_eq_some_iff]
  omega

theorem encode_movImm_eq_iff (h : Row.mvi.test I = true) {d : Reg} {imm16 : BitVec 16} :
    encode (.movImm d imm16) = I ↔ reg? I 0 = some d ∧ field I 5 16 = imm16 := by
  have hop : I.toNat / 2 ^ 21 % 2 ^ 11 = 0b01010010100 := Row.mvi.div_mod_of_test h 21 11 (by decide)
  have := I.isLt
  rw [encode, ofNat_eq_iff (by omega), reg?_eq_some_iff, field_eq_iff]
  omega

/-- LSL and LSR (immediate): the row asks that bit 22 be the width bit (R69). -/
theorem encodeShi_eq_iff (h : Row.shi.test I = true) {w : Width} {d n : Reg} {immr imms : Nat} (hr : immr < 2 ^ 6)
    (hs : imms < 2 ^ 6) :
    encodeShi w d n immr imms = I ↔
      widthAt I 31 = w ∧ reg? I 0 = some d ∧ reg? I 5 = some n ∧ (field I 16 6).toNat = immr ∧
        (field I 10 6).toNat = imms := by
  have hop : I.toNat / 2 ^ 23 % 2 ^ 8 = 0b10100110 := Row.shi.div_mod_of_test h 23 8 (by decide)
  rw [Row.test, rowShi, Bool.and_eq_true, beq_iff_eq (b := field I 31 1), field_eq_iff (v := field I 31 1),
    field_toNat] at h
  obtain ⟨-, hy⟩ := h
  have := I.isLt
  have := w.code_lt
  rw [encodeShi, ofNat_eq_iff (by omega), widthAt_eq_iff, reg?_eq_some_iff, reg?_eq_some_iff, field_toNat, field_toNat]
  cases w <;> simp only [Width.code]
  all_goals
    constructor
    · intro _
      omega
    · rintro ⟨_, _, _, _, _⟩
      omega

/-! ### The fields of LSL and LSR (immediate) -/

theorem Width.bits_le (w : Width) : w.bits ≤ 64 := by cases w <;> decide

theorem shiftImmOf_lsr {w : Width} {shift immr imms : BitVec 6} (hlt : shift.toNat < w.bits)
    (hr : immr.toNat = shift.toNat) (hs : imms.toNat = w.bits - 1) :
    shiftImmOf w immr imms = some fun d n => .lsrImm w d n shift := by
  obtain rfl := BitVec.eq_of_toNat_eq hr
  rw [shiftImmOf, if_neg (by omega), if_pos hs]

theorem shiftImmOf_lsl {w : Width} {shift immr imms : BitVec 6} (hlt : shift.toNat < w.bits) (hne : shift ≠ 0#6)
    (hr : immr.toNat = (w.bits - shift.toNat) % w.bits) (hs : imms.toNat = w.bits - 1 - shift.toNat) :
    shiftImmOf w immr imms = some fun d n => .lslImm w d n shift := by
  have hpos : shift.toNat ≠ 0 := fun h => hne (BitVec.eq_of_toNat_eq h)
  have hamount : BitVec.ofNat 6 (w.bits - 1 - imms.toNat) = shift :=
    BitVec.eq_of_toNat_eq (by rw [BitVec.toNat_ofNat]; omega)
  rw [Nat.mod_eq_of_lt (by omega)] at hr
  rw [shiftImmOf, if_neg (by omega), if_neg (by omega), if_pos (by rw [hr, hs, Nat.mod_eq_of_lt] <;> omega), hamount]

/-- An instruction of R69's table is well formed, is not `LSL #0`, and has the fields in its word. -/
theorem encode_of_shiftImmOf {w : Width} {immr imms : BitVec 6} {k : Reg → Reg → Instr}
    (hk : shiftImmOf w immr imms = some k) (d n : Reg) :
    encode (k d n) = encodeShi w d n immr.toNat imms.toNat ∧ (k d n).wf = true ∧ (k d n).canonical = k d n := by
  have hbits := w.bits_le
  obtain ⟨hr, hs, ⟨himms, rfl⟩ | ⟨himms, himmr, rfl⟩⟩ := shiftImmOf_eq_some hk
  · exact ⟨by rw [encode, himms], decide_eq_true hr, rfl⟩
  · have hamount : (BitVec.ofNat 6 (w.bits - 1 - imms.toNat)).toNat = w.bits - 1 - imms.toNat := by
      rw [BitVec.toNat_ofNat]
      omega
    refine ⟨?_, decide_eq_true (by omega), if_neg fun hzero => ?_⟩
    · rw [encode, hamount, himmr]
      congr 2 <;> omega
    · rw [hzero, BitVec.toNat_ofNat] at hamount
      omega

end Sys2Proof
end

section
/-! PROOFS of the encoding family (30_encoding.md), part 5: decoding and encoding are inverse (R53 to R72). -/

namespace Sys2Proof

section RoundTrip

variable {p : DecodeParams} {I : InstrWord} {i : Instr}

/-! ### From a word that decodes to its instruction's word -/

theorem condOf_refuse_eq_some {v : BitVec 4} {c : Cond} (h : condOf .refuse v = some c) : v.toNat = c.code := by
  revert v
  cases c <;> decide

/-- MUL, UDIV, SDIV, LSL and LSR (register). -/
theorem Row.encode_of_withDnm {r : Row} {k : Width → Reg → Reg → Reg → Instr} (htest : r.test I = true)
    (hr : r.mask = 0x7FE0FC00#32) (hk : ∀ w d n m, encode (k w d n m) = encodeDnm r.value.toNat w d n m)
    (h : withDnm I (k (widthAt I 31)) = .ok i) : encode i = I := by
  obtain ⟨w, d, n, m, hreads, rfl⟩ := withDnm_width_eq_ok_iff.1 h
  rw [hk]
  exact (encodeDnm_value_eq_iff htest hr).2 hreads

/-- The instruction a row answers has the word, where `COND1111` gives no second word to B.AL. -/
theorem Row.encode_of_outcome_ok {r : Row} (htest : r.test I = true) (hcond : p.cond1111 = .refuse)
    (h : r.outcome p I = .ok i) : encode i = I := by
  cases r
  case b | bl => cases h; exact (ofNat_imm26_eq_iff htest rfl).2 rfl
  case bCond =>
    rw [outcome, hcond] at h
    split at h <;> cases h
    exact (encode_bCond_eq_iff htest).2 ⟨condOf_refuse_eq_some ‹_›, rfl⟩
  case br | blr => obtain ⟨n, hn, rfl⟩ := withReg_eq_ok_iff.1 h; exact (ofNat_reg_eq_iff htest rfl).2 hn
  case cmr =>
    obtain ⟨n, m, hn, hm, rfl⟩ := withRegs_eq_ok_iff.1 h
    exact (encode_cmpReg_eq_iff htest).2 ⟨rfl, hn, hm⟩
  case cmi =>
    obtain ⟨n, hn, rfl⟩ := withReg_eq_ok_iff.1 h
    exact (encode_cmpImm_eq_iff htest).2 ⟨rfl, hn, rfl⟩
  case asi =>
    obtain ⟨d, n, hd, hn, rfl⟩ := withRegs_eq_ok_iff.1 h
    exact (encode_asiOf_eq_iff htest).2 ⟨⟨rfl, rfl⟩, rfl, hd, hn, rfl⟩
  case asr =>
    obtain ⟨w, d, n, m, hreads, rfl⟩ := withDnm_width_eq_ok_iff.1 h
    exact (encode_asrOf_eq_iff htest).2 ⟨⟨rfl, rfl⟩, hreads⟩
  case acr =>
    obtain ⟨w, d, n, m, hreads, rfl⟩ := withDnm_width_eq_ok_iff.1 h
    exact (encode_acrOf_eq_iff htest).2 ⟨⟨rfl, rfl⟩, hreads⟩
  case mul => exact encode_of_withDnm (k := .mul) htest rfl (fun _ _ _ _ => rfl) h
  case madd =>
    obtain ⟨d, n, m, a, hd, hn, hm, ha, rfl⟩ := withDnma_eq_ok_iff.1 h
    exact (encode_madd_eq_iff htest).2 ⟨ha, rfl, hd, hn, hm⟩
  case udiv => exact encode_of_withDnm (k := .udiv) htest rfl (fun _ _ _ _ => rfl) h
  case sdiv => exact encode_of_withDnm (k := .sdiv) htest rfl (fun _ _ _ _ => rfl) h
  case mvr =>
    obtain ⟨d, m, hd, hm, rfl⟩ := withRegs_eq_ok_iff.1 h
    exact (encode_movReg_eq_iff htest).2 ⟨rfl, hd, hm⟩
  case log =>
    obtain ⟨k, hk, h⟩ := log_outcome_eq_ok_iff.1 h
    obtain ⟨d, n, m, hd, hn, hm, rfl⟩ := withDnm_eq_ok_iff.1 h
    exact (encode_logOf_eq_iff htest hk).2 ⟨⟨rfl, rfl, rfl⟩, rfl, hd, hn, hm⟩
  case ldr | str =>
    obtain ⟨t, n, ht, hn, rfl⟩ := withRegs_eq_ok_iff.1 h
    exact (encodeLsi_width_eq_iff htest rfl).2 ⟨rfl, ht, hn, rfl⟩
  case strb | strh =>
    obtain ⟨t, n, ht, hn, rfl⟩ := withRegs_eq_ok_iff.1 h
    exact (encodeLsi_value_eq_iff htest rfl).2 ⟨ht, hn, rfl⟩
  case mvi =>
    obtain ⟨d, hd, rfl⟩ := withReg_eq_ok_iff.1 h
    exact (encode_movImm_eq_iff htest).2 ⟨hd, rfl⟩
  case lslr =>
    exact encode_of_withDnm (k := .lslReg) htest rfl (fun _ _ _ _ => rfl) (lslr_outcome_eq_ok_iff.1 h).2
  case lsrr =>
    exact encode_of_withDnm (k := .lsrReg) htest rfl (fun _ _ _ _ => rfl) (lsrr_outcome_eq_ok_iff.1 h).2
  case shi =>
    obtain ⟨-, k, hk, h⟩ := shi_outcome_eq_ok_iff.1 h
    obtain ⟨d, n, hd, hn, rfl⟩ := withRegs_eq_ok_iff.1 h
    exact (encode_of_shiftImmOf hk d n).1.trans
      ((encodeShi_eq_iff htest (field I 16 6).isLt (field I 10 6).isLt).2 ⟨rfl, hd, hn, rfl, rfl⟩)

theorem Instr.wf_and_canonical_of_row (h : i.row ≠ .shi) : i.wf = true ∧ i.canonical = i := by
  cases i
  case lslImm | lsrImm => exact absurd rfl h
  all_goals exact ⟨rfl, rfl⟩

theorem wf_and_canonical_of_outcome_ok (h : i.row.outcome p I = .ok i) : i.wf = true ∧ i.canonical = i := by
  by_cases hrow : i.row = .shi
  · rw [hrow] at h
    obtain ⟨-, k, hk, h⟩ := Row.shi_outcome_eq_ok_iff.1 h
    obtain ⟨d, n, -, -, rfl⟩ := withRegs_eq_ok_iff.1 h
    exact (encode_of_shiftImmOf hk d n).2
  · exact Instr.wf_and_canonical_of_row hrow

/-! ### From an instruction to what its word decodes to -/

namespace Row

theorem asi_outcome_of_encode (q s : Bool) {w : Width} {d n : Reg} {imm12 : BitVec 12} (htest : asi.test I = true)
    (h : encode (asiOf q s w imm12 d n) = I) : asi.outcome p I = .ok (asiOf q s w imm12 d n) := by
  obtain ⟨⟨rfl, rfl⟩, rfl, hd, hn, rfl⟩ := (encode_asiOf_eq_iff htest).1 h
  exact withRegs_eq_ok_iff.2 ⟨d, n, hd, hn, rfl⟩

theorem asr_outcome_of_encode (q s : Bool) {w : Width} {d n m : Reg} (htest : asr.test I = true)
    (h : encode (asrOf q s w d n m) = I) : asr.outcome p I = .ok (asrOf q s w d n m) := by
  obtain ⟨⟨rfl, rfl⟩, hreads⟩ := (encode_asrOf_eq_iff htest).1 h
  exact withDnm_width_eq_ok_iff.2 ⟨w, d, n, m, hreads, rfl⟩

theorem acr_outcome_of_encode (q s : Bool) {w : Width} {d n m : Reg} (htest : acr.test I = true)
    (h : encode (acrOf q s w d n m) = I) : acr.outcome p I = .ok (acrOf q s w d n m) := by
  obtain ⟨⟨rfl, rfl⟩, hreads⟩ := (encode_acrOf_eq_iff htest).1 h
  exact withDnm_width_eq_ok_iff.2 ⟨w, d, n, m, hreads, rfl⟩

theorem log_outcome_of_encode (p₁ p₀ q : Bool) {w : Width} {k : Reg → Reg → Reg → Instr} {d n m : Reg}
    (hk : logOf p₁ p₀ q w = some k) (htest : log.test I = true) (h : encode (k d n m) = I) :
    log.outcome p I = .ok (k d n m) := by
  obtain ⟨⟨rfl, rfl, rfl⟩, rfl, hd, hn, hm⟩ := (encode_logOf_eq_iff htest hk).1 h
  exact log_outcome_eq_ok_iff.2 ⟨k, hk, withDnm_eq_ok_iff.2 ⟨d, n, m, hd, hn, hm, rfl⟩⟩

/-- MUL, UDIV, SDIV, LSL and LSR (register). -/
theorem withDnm_of_encode {r : Row} {k : Width → Reg → Reg → Reg → Instr} {w : Width} {d n m : Reg}
    (htest : r.test I = true) (hr : r.mask = 0x7FE0FC00#32) (h : encodeDnm r.value.toNat w d n m = I) :
    withDnm I (k (widthAt I 31)) = .ok (k w d n m) :=
  withDnm_width_eq_ok_iff.2 ⟨w, d, n, m, (encodeDnm_value_eq_iff htest hr).1 h, rfl⟩

theorem shi_outcome_of_encode {w : Width} {d n : Reg} {immr imms : Nat} {k : Reg → Reg → Instr}
    (htest : shi.test I = true) (hp : p.admitShiftEncodings = true) (hr : immr < 2 ^ 6) (hs : imms < 2 ^ 6)
    (hk : ∀ r s : BitVec 6, r.toNat = immr → s.toNat = imms → shiftImmOf w r s = some k)
    (h : encodeShi w d n immr imms = I) : shi.outcome p I = .ok (k d n) := by
  obtain ⟨rfl, hd, hn, himmr, himms⟩ := (encodeShi_eq_iff htest hr hs).1 h
  exact shi_outcome_eq_ok_iff.2 ⟨hp, k, hk _ _ himmr himms, withRegs_eq_ok_iff.2 ⟨d, n, hd, hn, rfl⟩⟩

end Row

theorem encode_lslImm_zero (w : Width) (d n : Reg) : encode (.lslImm w d n 0#6) = encode (.lsrImm w d n 0#6) := by
  cases w <;> rfl

theorem Row.lsrImm_outcome_of_encode {w : Width} {d n : Reg} {shift : BitVec 6} (htest : shi.test I = true)
    (hp : p.admitShiftEncodings = true) (hlt : shift.toNat < w.bits) (h : encode (.lsrImm w d n shift) = I) :
    shi.outcome p I = .ok (.lsrImm w d n shift) := by
  have hbits := w.bits_le
  exact shi_outcome_of_encode (k := fun d n => .lsrImm w d n shift) htest hp shift.isLt (by omega)
    (fun r s hr hs => shiftImmOf_lsr hlt hr hs) h

theorem Row.lslImm_outcome_of_encode {w : Width} {d n : Reg} {shift : BitVec 6} (htest : shi.test I = true)
    (hp : p.admitShiftEncodings = true) (hlt : shift.toNat < w.bits) (h : encode (.lslImm w d n shift) = I) :
    shi.outcome p I = .ok (Instr.lslImm w d n shift).canonical := by
  have hbits := w.bits_le
  rw [Instr.canonical]
  split
  case isTrue hzero =>
    subst hzero
    exact lsrImm_outcome_of_encode htest hp hlt ((encode_lslImm_zero w d n).symm.trans h)
  case isFalse hne =>
    have hmod : (w.bits - shift.toNat) % w.bits < w.bits := Nat.mod_lt _ (by omega)
    exact shi_outcome_of_encode (k := fun d n => .lslImm w d n shift) htest hp (by omega) (by omega)
      (fun r s hr hs => shiftImmOf_lsl hlt hne hr hs) h

/-- The row of an instruction answers it on its word. -/
theorem Instr.row_outcome_of_encode (hwf : i.wf = true) (hp : i.isShift = true → p.admitShiftEncodings = true)
    (htest : i.row.test I = true) (h : encode i = I) : i.row.outcome p I = .ok i.canonical := by
  cases i
  case b | bl => cases (ofNat_imm26_eq_iff htest rfl).1 h; rfl
  case bCond c imm19 =>
    obtain ⟨hc, rfl⟩ := (encode_bCond_eq_iff htest).1 h
    simp only [row, Row.outcome, condOf_code p.cond1111 c _ hc, canonical]
  case br | blr => exact withReg_eq_ok_iff.2 ⟨_, (ofNat_reg_eq_iff htest rfl).1 h, rfl⟩
  case cmpReg w n m =>
    obtain ⟨rfl, hn, hm⟩ := (encode_cmpReg_eq_iff htest).1 h
    exact withRegs_eq_ok_iff.2 ⟨n, m, hn, hm, rfl⟩
  case cmpImm w n imm12 =>
    obtain ⟨rfl, hn, rfl⟩ := (encode_cmpImm_eq_iff htest).1 h
    exact withReg_eq_ok_iff.2 ⟨n, hn, rfl⟩
  case addImm => exact Row.asi_outcome_of_encode false false htest h
  case addsImm => exact Row.asi_outcome_of_encode false true htest h
  case subImm => exact Row.asi_outcome_of_encode true false htest h
  case subsImm => exact Row.asi_outcome_of_encode true true htest h
  case addReg => exact Row.asr_outcome_of_encode false false htest h
  case addsReg => exact Row.asr_outcome_of_encode false true htest h
  case subReg => exact Row.asr_outcome_of_encode true false htest h
  case subsReg => exact Row.asr_outcome_of_encode true true htest h
  case adc => exact Row.acr_outcome_of_encode false false htest h
  case adcs => exact Row.acr_outcome_of_encode false true htest h
  case sbc => exact Row.acr_outcome_of_encode true false htest h
  case sbcs => exact Row.acr_outcome_of_encode true true htest h
  case mul => exact Row.withDnm_of_encode (k := .mul) htest rfl h
  case madd w d n m a =>
    obtain ⟨ha, rfl, hd, hn, hm⟩ := (encode_madd_eq_iff htest).1 h
    exact withDnma_eq_ok_iff.2 ⟨d, n, m, a, hd, hn, hm, ha, rfl⟩
  case udiv => exact Row.withDnm_of_encode (k := .udiv) htest rfl h
  case sdiv => exact Row.withDnm_of_encode (k := .sdiv) htest rfl h
  case and w _ _ _ => exact Row.log_outcome_of_encode false false false (k := .and w) rfl htest h
  case ands w _ _ _ => exact Row.log_outcome_of_encode true true false (k := .ands w) rfl htest h
  case orr w _ _ _ => exact Row.log_outcome_of_encode false true false (k := .orr w) rfl htest h
  case orn w _ _ _ => exact Row.log_outcome_of_encode false true true (k := .orn w) rfl htest h
  case eor w _ _ _ => exact Row.log_outcome_of_encode true false false (k := .eor w) rfl htest h
  case eon w _ _ _ => exact Row.log_outcome_of_encode true false true (k := .eon w) rfl htest h
  case lslImm => exact Row.lslImm_outcome_of_encode htest (hp rfl) (of_decide_eq_true hwf) h
  case lsrImm => exact Row.lsrImm_outcome_of_encode htest (hp rfl) (of_decide_eq_true hwf) h
  case lslReg => exact Row.lslr_outcome_eq_ok_iff.2 ⟨hp rfl, Row.withDnm_of_encode (r := .lslr) htest rfl h⟩
  case lsrReg => exact Row.lsrr_outcome_eq_ok_iff.2 ⟨hp rfl, Row.withDnm_of_encode (r := .lsrr) htest rfl h⟩
  case ldr | str =>
    obtain ⟨rfl, ht, hn, rfl⟩ := (encodeLsi_width_eq_iff htest rfl).1 h
    exact withRegs_eq_ok_iff.2 ⟨_, _, ht, hn, rfl⟩
  case strb | strh =>
    obtain ⟨ht, hn, rfl⟩ := (encodeLsi_value_eq_iff htest rfl).1 h
    exact withRegs_eq_ok_iff.2 ⟨_, _, ht, hn, rfl⟩
  case movReg w d m =>
    obtain ⟨rfl, hd, hm⟩ := (encode_movReg_eq_iff htest).1 h
    exact withRegs_eq_ok_iff.2 ⟨d, m, hd, hm, rfl⟩
  case movImm d imm16 =>
    obtain ⟨hd, rfl⟩ := (encode_movImm_eq_iff htest).1 h
    exact withReg_eq_ok_iff.2 ⟨d, hd, rfl⟩

theorem Instr.canonical_cases (i : Instr) :
    i.canonical = i ∨ ∃ w d n, i = .lslImm w d n 0#6 ∧ i.canonical = .lsrImm w d n 0#6 := by
  cases i
  case lslImm w d n shift =>
    by_cases hzero : shift = 0#6
    · exact .inr ⟨w, d, n, by rw [hzero], if_pos hzero⟩
    · exact .inl (if_neg hzero)
  all_goals exact .inl rfl

end RoundTrip

/-- Settles O5: the row of the instruction accepts its word and answers it. -/
theorem decodeOfEncodeIsTheInstruction : Obligations.DecodeOfEncodeIsTheInstruction := by
  intro p i hwf hp
  have htest := i.row_test_encode hwf
  exact ⟨Row.decode_ok_iff.2 ⟨i.row, htest, Instr.row_outcome_of_encode hwf hp htest rfl⟩, i.canonical_cases⟩

/-- Settles O6: the row that answers the instruction leaves no bit of the word open. -/
theorem encodeOfDecodeIsTheWord : Obligations.EncodeOfDecodeIsTheWord := by
  intro p I i hcond hd
  obtain ⟨htest, hok⟩ := decode_ok_iff_row.1 hd
  exact ⟨Row.encode_of_outcome_ok htest hcond hok, wf_and_canonical_of_outcome_ok hok⟩

end Sys2Proof
end

section
/-! PROOFS of the encoding family (30_encoding.md), part 6: the assembler (R73 to R76) and the shifts by zero (R69). -/

namespace Sys2Proof.Machine

/-! ### Immediates and the operands of a line -/

theorem unsignedImm?_eq_some {k scale : Nat} (hs : 0 < scale) (v : BitVec k) :
    unsignedImm? k scale (v.toNat * scale : Nat) = some v := by
  have hdiv : ((v.toNat * scale : Nat) : Int) / scale = v.toNat := by
    rw [← Int.natCast_ediv, Nat.mul_div_cancel _ hs]
  have hmod : ((v.toNat * scale : Nat) : Int) % scale = 0 := by
    rw [← Int.natCast_emod, Nat.mul_mod_left, Int.natCast_zero]
  have hlt : (v.toNat : Int) < 2 ^ k := by exact_mod_cast v.isLt
  rw [unsignedImm?, hdiv, if_pos ⟨Int.natCast_nonneg _, hmod, hlt⟩]
  exact congrArg some (BitVec.eq_of_toNat_eq (by simp))

theorem unsignedImm?_one {k : Nat} (v : BitVec k) : unsignedImm? k 1 v.toNat = some v := by
  simpa using unsignedImm?_eq_some Nat.one_pos v

theorem branchImm?_eq_some {k : Nat} (v : BitVec (k + 1)) : branchImm? (k + 1) (v.toInt * 4) = some v := by
  have hlo := BitVec.le_toInt v
  have hhi := BitVec.toInt_lt (x := v)
  rw [Nat.add_sub_cancel] at hlo hhi
  have hpow : (2 : Int) ^ (k + 1 + 1) = 4 * 2 ^ k := by ring
  rw [branchImm?, hpow, if_pos ⟨Int.mul_emod_left _ _, by omega, by omega⟩, Int.mul_ediv_cancel _ (by decide),
    BitVec.ofInt_toInt]

theorem shiftImm?_eq_some {w : Width} {v : BitVec 6} (h : shiftInRange w v = true) :
    shiftImm? w v.toNat = some v := by
  have hlt : (v.toNat : Int) < w.bits := by exact_mod_cast of_decide_eq_true h
  rw [shiftImm?, if_pos ⟨Int.natCast_nonneg _, hlt⟩]
  exact congrArg some (BitVec.eq_of_toNat_eq (by simp))

theorem asmDnm_line (k : Width → Reg → Reg → Reg → Instr) (w : Width) (d n m : Reg) :
    asmDnm k [.reg w d, .reg w n, .reg w m] = some (k w d n m) :=
  if_pos ⟨rfl, rfl⟩

theorem asmAddSub_imm (kr : Width → Reg → Reg → Reg → Instr) (ki : Width → Reg → Reg → BitVec 12 → Instr) (w : Width)
    (d n : Reg) (v : BitVec 12) : asmAddSub kr ki [.reg w d, .reg w n, .imm v.toNat] = some (ki w d n v) := by
  rw [asmAddSub, if_pos rfl, unsignedImm?_one, Option.map_some]

theorem asmShift_imm (kr : Width → Reg → Reg → Reg → Instr) (ki : Width → Reg → Reg → BitVec 6 → Instr) {w : Width}
    (d n : Reg) {v : BitVec 6} (h : shiftInRange w v = true) :
    asmShift kr ki [.reg w d, .reg w n, .imm v.toNat] = some (ki w d n v) := by
  rw [asmShift, if_pos rfl, shiftImm?_eq_some h, Option.map_some]

theorem asmLoadStore_line (k : Width → Reg → Reg → BitVec 12 → Instr) (w : Width) (t n : Reg) (v : BitVec 12) :
    asmLoadStore k [.reg w t, .memory n (some (v.toNat * w.bytes : Nat))] = some (k w t n v) := by
  rw [asmLoadStore, Option.getD_some, unsignedImm?_eq_some (by cases w <;> decide), Option.map_some]

theorem asmNarrowStore_line {sz : Nat} (hs : 0 < sz) (k : Reg → Reg → BitVec 12 → Instr) (t n : Reg) (v : BitVec 12) :
    asmNarrowStore sz k [.reg .w32 t, .memory n (some (v.toNat * sz : Nat))] = some (k t n v) := by
  rw [asmNarrowStore, Option.getD_some, unsignedImm?_eq_some hs, Option.map_some]

/-- Settles O13, instruction by instruction: the operands of its line are those its mnemonic takes, and its immediate
is read back from the number written for it. -/
theorem assembleOfLineIsTheInstruction : Obligations.AssembleOfLineIsTheInstruction := by
  intro i hwf
  cases i
  case b | bl | bCond => exact congrArg (Option.map _) (branchImm?_eq_some _)
  case br | blr => rfl
  case cmpReg | movReg => exact if_pos rfl
  case cmpImm | movImm => exact congrArg (Option.map _) (unsignedImm?_one _)
  case addImm => exact asmAddSub_imm .addReg _ _ _ _ _
  case addsImm => exact asmAddSub_imm .addsReg _ _ _ _ _
  case subImm => exact asmAddSub_imm .subReg _ _ _ _ _
  case subsImm => exact asmAddSub_imm .subsReg _ _ _ _ _
  case lslImm => exact asmShift_imm .lslReg _ _ _ hwf
  case lsrImm => exact asmShift_imm .lsrReg _ _ _ hwf
  case madd => exact if_pos ⟨rfl, rfl, rfl⟩
  case ldr | str => exact asmLoadStore_line _ _ _ _ _
  case strb | strh => exact asmNarrowStore_line (by decide) _ _ _ _
  all_goals exact asmDnm_line _ _ _ _ _

/-! ### Ranges (R73, R75) -/

theorem unsignedImm?_isSome_iff {scale : Nat} (hs : 0 < scale) (v : Int) :
    (unsignedImm? 12 scale v).isSome ↔ 0 ≤ v ∧ v ≤ 4095 * scale ∧ (scale : Int) ∣ v := by
  have hscale : (0 : Int) < scale := by exact_mod_cast hs
  have hrange : v / scale < 2 ^ 12 ↔ v / scale ≤ 4095 := by omega
  rw [unsignedImm?, Option.isSome_ite, Int.dvd_iff_emod_eq_zero, hrange]
  refine and_congr_right fun _ => and_comm.trans (and_congr_left fun hmod => ?_)
  obtain ⟨q, rfl⟩ := Int.dvd_of_emod_eq_zero hmod
  rw [Int.mul_ediv_cancel_left _ hscale.ne', mul_comm (4095 : Int)]
  exact (mul_le_mul_iff_right₀ hscale).symm

theorem branchImm?_isSome_iff (k : Nat) (o : Int) :
    (branchImm? k o).isSome ↔ -2 ^ (k + 1) ≤ o ∧ o ≤ 2 ^ (k + 1) - 4 ∧ 4 ∣ o := by
  rw [branchImm?, Option.isSome_ite, Int.dvd_iff_emod_eq_zero, and_rotate]

/-- Settles O14: a line of these forms is accepted when its immediate is. -/
theorem assemblerAcceptsExactlyTheRanges : Obligations.AssemblerAcceptsExactlyTheRanges := by
  refine ⟨fun w t n o => ?_, fun c o => ?_⟩
  · have hbytes : 0 < w.bytes := by cases w <;> decide
    have hhalf := unsignedImm?_isSome_iff (scale := 2) (by decide) o
    have hbyte := unsignedImm?_isSome_iff (scale := 1) (by decide) o
    simp only [assemble, asmLoadStore, asmNarrowStore, Option.getD_some, Option.isSome_map]
    exact ⟨unsignedImm?_isSome_iff hbytes o, unsignedImm?_isSome_iff hbytes o, hhalf, by simpa using hbyte⟩
  · simp only [assemble, Option.isSome_map]
    exact ⟨branchImm?_isSome_iff 26 o, branchImm?_isSome_iff 26 o, branchImm?_isSome_iff 19 o⟩

/-! ### The shifts by zero (R69, R128, R130) -/

theorem exec_lsrImm_zero (s : State) (w : Width) (d n : Reg) :
    exec (.lsrImm w d n 0#6) s = .next ((s.writeReg w d (s.readReg w n)).advance) := by
  rw [exec, execLsrImm, BitVec.toNat_zero, BitVec.ushiftRight_zero]
  rfl

/-- Settles O53: both shifts by 0 leave the register read as it is. -/
theorem shiftsByZeroAreOneInstruction : Obligations.ShiftsByZeroAreOneInstruction := by
  intro s w d n
  refine ⟨encode_lslImm_zero w d n, ?_, _, exec_lsrImm_zero s w d n, ?_, rfl, fun r hr => reg_frame s w _ hr, rfl,
    fun a => rfl, rfl, rfl⟩
  · rw [exec, execLslImm, exec_lsrImm_zero, BitVec.toNat_zero, BitVec.shiftLeft_zero]
    rfl
  · rw [State.advance_x, State.writeReg_x_same]
    exact BitVec.eq_of_toNat_eq (by rw [BitVec.toNat_setWidth, BitVec.toNat_ofNat, State.readReg_toNat]; rfl)

end Sys2Proof.Machine
end

section
/-! PROOFS of the branch family (40_branches.md): the conditions of R80, where a branch leaves `pc` and its frame
(R81 to R85), and the spec's example words. -/

namespace Sys2Proof

/-- A B.cond word decodes as its `cond` field says; no row is nested in its row (R72, R80). -/
theorem decode_of_rowBCond {p : DecodeParams} {I : InstrWord} (h : rowBCond I = true) :
    decode p I = Row.bCond.outcome p I :=
  Row.decode_eq_outcome (r := .bCond) h fun _ hinner => nomatch hinner

/-- Settles O12: each word is a closed term, on which the decoder computes. -/
theorem exampleWordsDecodeAsWritten : Obligations.ExampleWordsDecodeAsWritten := by
  unfold Obligations.ExampleWordsDecodeAsWritten
  decide

end Sys2Proof

namespace Sys2Proof.Machine

open Sys2Proof.Claims

/-! ### Conditions (R80) -/

/-- An odd value of `cond` names the negation of the even value before it. -/
theorem conditionHolds_odd_iff {even odd : Cond} (heven : even.code % 2 = 0) (hodd : odd.code = even.code + 1)
    (f : Flags) : conditionHolds odd f ↔ ¬ conditionHolds even f := by
  cases even
  case ne | cc | pl | vc | ls | lt | le => cases heven
  case al => exact absurd odd.code_lt (hodd ▸ by decide)
  case eq | cs | mi | vs | hi | ge | gt =>
    cases odd <;> cases hodd
    simp [conditionHolds, imp_iff_not_or]

/-! ### Where `pc` stands and what is kept (R16, R73, R81 to R85) -/

section Branches
variable {s t : State}

theorem jumpsBy_of_pc_eq_branchTarget {k : Nat} {imm : BitVec k} (hk : k + 2 ≤ 64)
    (h : t.pc = branchTarget s imm) : JumpsBy s t imm.toInt := by
  rw [JumpsBy, h, branchTarget_toNat s hk]

/-- The next instruction is a jump by one word (R8). -/
theorem jumpsBy_one_of_pc_eq (h : t.pc = s.pc + 4#64) : JumpsBy s t 1 := by
  rw [JumpsBy, h, BitVec.toNat_add]
  rfl

variable (s)

theorem branchFrame_setPc (a : Addr) : BranchFrame s (s.setPc a) fun _ => False :=
  ⟨fun _ _ => rfl, rfl, rfl, fun _ => rfl, rfl⟩

theorem branchFrame_link (v : Word64) (a : Addr) :
    BranchFrame s ((s.setX Reg.lr v).setPc a) fun r => r = 30 :=
  ⟨fun _ hr => s.setX_x_other v hr, rfl, rfl, fun _ => rfl, rfl⟩

theorem link_x_lr (v : Word64) (a : Addr) : ((s.setX Reg.lr v).setPc a).x 30 = v :=
  s.setX_x_same Reg.lr v

end Branches

/-! ### The obligations -/

/-- Settles O30: the `cond` field is read by `condOf`, the odd rows are `conditionHolds_odd_iff`. -/
theorem conditionsHoldAsTheTableSays : Obligations.ConditionsHoldAsTheTableSays := by
  refine ⟨fun p => rfl, fun p I hrow (hcond : field I 0 4 = 0b1111#4) => ?_, fun f => ?_⟩
  · rw [decode_of_rowBCond hrow, Row.outcome, hcond]
    exact ⟨fun hp => ⟨.condition1111, by rw [hp]; rfl⟩, fun hp => by rw [hp]; rfl⟩
  · have hnot {even odd : Cond} (heven : even.code % 2 = 0) (hodd : odd.code = even.code + 1) :=
      conditionHolds_odd_iff heven hodd f
    refine ⟨?eq, ?ne, ?cs, ?cc, ?mi, ?pl, ?vs, ?vc, ?hi, ?ls, ?ge, ?lt, ?gt, ?le, ?al,
      hnot rfl rfl, hnot rfl rfl, hnot rfl rfl, hnot rfl rfl, hnot rfl rfl, hnot rfl rfl, hnot rfl rfl⟩
    all_goals simp [conditionHolds]

/-- Settles O31: B sets `pc` to the branch target and nothing else. -/
theorem branchJumpsByItsOffset : Obligations.BranchJumpsByItsOffset :=
  fun s imm26 => ⟨s.setPc (branchTarget s imm26), rfl, jumpsBy_of_pc_eq_branchTarget (by decide) rfl,
    branchFrame_setPc s _⟩

/-- Settles O32: by `exec_bCond` both ways set `pc` alone. -/
theorem conditionalBranchJumpsIffItsConditionHolds : Obligations.ConditionalBranchJumpsIffItsConditionHolds := by
  intro s c imm19
  refine ⟨_, exec_bCond c imm19 s, fun hholds => ?_, fun hfails => ?_, branchFrame_setPc s _⟩
  · exact jumpsBy_of_pc_eq_branchTarget (by decide) (if_pos hholds)
  · exact jumpsBy_one_of_pc_eq (if_neg (by simp [hfails]))

/-- Settles O34: BL sets X30 and `pc`, and the target is reckoned from the old `pc`. -/
theorem branchLinkSavesTheReturnAddress : Obligations.BranchLinkSavesTheReturnAddress :=
  fun s imm26 => ⟨(s.setX Reg.lr (s.pc + 4#64)).setPc (branchTarget s imm26), rfl,
    jumpsBy_of_pc_eq_branchTarget (by decide) rfl, link_x_lr s _ _, branchFrame_link s _ _⟩

/-- Settles O33: BR sets `pc` to the register and nothing else. -/
theorem branchRegisterJumpsToTheRegister : Obligations.BranchRegisterJumpsToTheRegister :=
  fun s n => ⟨s.setPc (s.x n), rfl, rfl, branchFrame_setPc s _⟩

/-- Settles O35: the target is a register of the state before, so the link does not change it. -/
theorem branchLinkRegisterJumpsToTheOldRegister : Obligations.BranchLinkRegisterJumpsToTheOldRegister :=
  fun s n => ⟨(s.setX Reg.lr (s.pc + 4#64)).setPc (s.x n), rfl, rfl, link_x_lr s _ _, branchFrame_link s _ _⟩

end Sys2Proof.Machine
end

section
/-! PROOFS of the compare family (41_compare.md): the flags of a subtraction in the numbers of the statements
(R90, R91, R95), and CMP beside SUBS (R92). -/

namespace Sys2Proof.Machine

open Sys2Proof.Claims

/-- `sint_N` of the number a bit vector spells is its signed value (R7). -/
theorem toInt_eq_sintOf {w : Width} (x : BitVec w.bits) : x.toInt = sintOf w x.toNat := by
  rw [BitVec.toInt_eq_toNat_cond, sintOf]
  cases w <;> simp only [Width.bits] <;> split <;> split <;> omega

/-- The statements' `uint(R[r])` is the number the model's register read spells (R7, R11). -/
theorem readReg_toNat_eq_uint (s : State) (w : Width) (r : Reg) : (s.readReg w r).toNat = uint s w r :=
  s.readReg_toNat w r

/-- The flags of `a - b` are those of the exact differences (R95). -/
theorem diffFlags_subFlags {w : Width} (a b : BitVec w.bits) : DiffFlags w a.toNat b.toNat (subFlags a b).2 := by
  have hbits : 0 < w.bits := by cases w <;> decide
  refine ⟨subFlags_n a b, subFlags_z a b, subFlags_c a b, ?_⟩
  rw [← toInt_eq_sintOf, ← toInt_eq_sintOf]
  exact subFlags_v a b hbits

/-- An ending that writes the flags alone keeps the frame (R8, R90, R91). -/
theorem finishFlags_writesFlags (s : State) {f : Flags} {F : Flags → Prop} (hF : F f) :
    ∃ t, finishFlags f s = .next t ∧ WritesFlags s t F :=
  ⟨(s.setFlags f).advance, rfl, hF, fun _ => rfl, rfl, fun _ => rfl, rfl, rfl⟩

/-- The endings of CMP and SUBS write the same flags and differ at most in register `d` (R92). -/
theorem finishFlags_agrees_finishRegFlags (s : State) (w : Width) (d : Reg) (v : BitVec w.bits × Flags) :
    ∃ t u, finishFlags v.2 s = .next t ∧ finishRegFlags w d v s = .next u ∧
      t.flags = u.flags ∧ ∀ r, r ≠ d → t.x r = u.x r :=
  ⟨(s.setFlags v.2).advance, ((s.writeReg w d v.1).setFlags v.2).advance, rfl, rfl, rfl,
    fun _ hr => (s.writeReg_x_other w v.1 hr).symm⟩

/-- Settles O36: both CMPs end with the flags of a subtraction, of two registers or of a register and an immediate. -/
theorem comparesSetTheFlagsOfTheDifference : Obligations.ComparesSetTheFlagsOfTheDifference := by
  intro s w n m imm12
  have hreg : DiffFlags w (uint s w n) (uint s w m) (subFlags (s.readReg w n) (s.readReg w m)).2 := by
    simpa only [readReg_toNat_eq_uint] using diffFlags_subFlags (s.readReg w n) (s.readReg w m)
  have himm : DiffFlags w (uint s w n) imm12.toNat (subFlags (s.readReg w n) (immOperand w imm12)).2 := by
    simpa only [readReg_toNat_eq_uint, immOperand_toNat] using
      diffFlags_subFlags (s.readReg w n) (immOperand w imm12)
  exact ⟨finishFlags_writesFlags s hreg, finishFlags_writesFlags s himm⟩

/-- Settles O38: CMP and SUBS end with the same subtraction. -/
theorem compareAndSubtractSetTheSameFlags : Obligations.CompareAndSubtractSetTheSameFlags :=
  fun s w d n m imm12 =>
    ⟨finishFlags_agrees_finishRegFlags s w d (subFlags (s.readReg w n) (s.readReg w m)),
      finishFlags_agrees_finishRegFlags s w d (subFlags (s.readReg w n) (immOperand w imm12))⟩

end Sys2Proof.Machine
end

section
/-! PROOFS of the add and subtract family (42_add_sub.md): the adder in the numbers of the statements (R95), the two
endings that write a register (R96), and the conditions after a comparison (R80). -/

namespace Sys2Proof.Machine

open Sys2Proof.Claims

/-! ### Operands as the statements' numbers (R7, R11) -/

theorem width_bits_pos (w : Width) : 0 < w.bits := by cases w <;> decide

theorem uint_lt (s : State) (w : Width) (r : Reg) : uint s w r < 2 ^ w.bits :=
  Nat.mod_lt _ (Nat.two_pow_pos _)

/-- The statements' `sint(R[r])` is the signed value of the model's register read. -/
theorem readReg_toInt_eq_sint (s : State) (w : Width) (r : Reg) : (s.readReg w r).toInt = sint s w r := by
  rw [toInt_eq_sintOf, readReg_toNat_eq_uint, sint]

theorem carry_eq_toNat (s : State) : carry s = s.flags.c.toNat := by
  rw [carry]
  cases s.flags.c <;> rfl

/-! ### The adder: `a + b + cin`, `a + b`, and `a + NOT b + cin` (R95, R105 to R108) -/

section Adder
variable {w : Width} (a b : BitVec w.bits) (cin : Bool)

theorem sumFlags_addWithCarry :
    SumFlags w (a.toNat + b.toNat + cin.toNat) (a.toInt + b.toInt + cin.toNat) (addWithCarry a b cin).2 :=
  ⟨addWithCarry_n a b cin, addWithCarry_z a b cin, addWithCarry_c a b cin, addWithCarry_v a b cin (width_bits_pos w)⟩

theorem addFlags_result : (addFlags a b).1.toNat = (a.toNat + b.toNat) % 2 ^ w.bits :=
  addWithCarry_result a b false

theorem sumFlags_addFlags : SumFlags w (a.toNat + b.toNat) (a.toInt + b.toInt) (addFlags a b).2 := by
  simpa [addFlags] using sumFlags_addWithCarry a b false

theorem addWithCarry_not_result :
    (addWithCarry a (~~~b) cin).1.toNat = (a.toNat + (2 ^ w.bits - 1 - b.toNat) + cin.toNat) % 2 ^ w.bits := by
  rw [addWithCarry_result, not_toNat]

/-- `NOT b` stands for `-b - 1` in the signed sum. -/
theorem sumFlags_addWithCarry_not :
    SumFlags w (a.toNat + (2 ^ w.bits - 1 - b.toNat) + cin.toNat) (a.toInt - b.toInt - 1 + cin.toNat)
      (addWithCarry a (~~~b) cin).2 := by
  have hsigned : a.toInt - b.toInt - 1 = a.toInt + (~~~b).toInt := by
    rw [not_toInt b (width_bits_pos w)]
    omega
  rw [hsigned, ← not_toNat]
  exact sumFlags_addWithCarry a (~~~b) cin

end Adder

/-! ### The endings that write a register (R8, R12, R96) -/

section Endings
variable (s : State) {w : Width} (d : Reg) {k : Nat}

theorem frame_writeReg (v : BitVec w.bits) : Frame s (s.writeReg w d v).advance d :=
  ⟨fun _ hr => reg_frame s w v hr, rfl, fun _ => rfl, rfl, rfl⟩

theorem writeReg_x_eq_ofNat {v : BitVec w.bits} (hv : v.toNat = k) :
    (s.writeReg w d v).x d = BitVec.ofNat 64 k := by
  rw [State.writeReg_x_same, ← hv, BitVec.ofNat_toNat]

theorem finishReg_writesReg {v : BitVec w.bits} (hv : v.toNat = k) :
    ∃ t, finishReg w d v s = .next t ∧ WritesReg s t d k :=
  ⟨(s.writeReg w d v).advance, rfl, writeReg_x_eq_ofNat s d hv, rfl, frame_writeReg s d v⟩

theorem finishRegFlags_writesRegFlags {v : BitVec w.bits × Flags} {F : Flags → Prop} (hv : v.1.toNat = k)
    (hF : F v.2) : ∃ t, finishRegFlags w d v s = .next t ∧ WritesRegFlags s t d k F :=
  ⟨((s.writeReg w d v.1).setFlags v.2).advance, rfl, writeReg_x_eq_ofNat s d hv, hF, frame_writeReg s d v.1⟩

end Endings

/-! ### What the conditions say of a difference (R80) -/

theorem sintOf_inj {w : Width} {a b : Nat} (ha : a < 2 ^ w.bits) (hb : b < 2 ^ w.bits)
    (h : sintOf w a = sintOf w b) : a = b := by
  unfold sintOf at h
  cases w <;> simp only [Width.bits] at * <;> omega

section Conditions
variable {w : Width} {a b : Nat} {f : Flags} (h : DiffFlags w a b f)
include h

theorem eq_iff_of_diffFlags : conditionHolds .eq f ↔ a = b := by
  obtain ⟨-, hz, -, -⟩ := h
  exact hz

theorem cs_iff_of_diffFlags : conditionHolds .cs f ↔ b ≤ a := by
  obtain ⟨-, -, hc, -⟩ := h
  exact hc

theorem hi_iff_of_diffFlags : conditionHolds .hi f ↔ b < a := by
  obtain ⟨-, hz, hc, -⟩ := h
  simp only [conditionHolds, Bool.and_eq_true, Bool.not_eq_true', Bool.eq_false_iff, ne_eq, hz, hc]
  omega

/-- N is the sign of the wrapped difference; it is the sign of the exact one unless V says that it wrapped. -/
theorem ge_iff_of_diffFlags (ha : a < 2 ^ w.bits) (hb : b < 2 ^ w.bits) :
    conditionHolds .ge f ↔ sintOf w b ≤ sintOf w a := by
  obtain ⟨hn, -, -, hv⟩ := h
  rw [conditionHolds, beq_iff_eq, Bool.eq_iff_iff, hn, hv]
  unfold diff sintOf
  cases w <;> simp only [Width.bits] at * <;> omega

/-- GT is GE without EQ. -/
theorem gt_iff_of_diffFlags (ha : a < 2 ^ w.bits) (hb : b < 2 ^ w.bits) :
    conditionHolds .gt f ↔ sintOf w b < sintOf w a := by
  have hsplit : conditionHolds .gt f ↔ ¬ conditionHolds .eq f ∧ conditionHolds .ge f := by simp [conditionHolds]
  rw [hsplit, eq_iff_of_diffFlags h, ge_iff_of_diffFlags h ha hb, lt_iff_le_and_ne, and_comm]
  exact and_congr_right fun _ => not_congr ⟨fun e => by rw [e], fun e => (sintOf_inj hb ha e).symm⟩

end Conditions

/-! ### The obligations -/

/-- Settles O39: the laws of the adder, with `sint_N` of the operands' numbers for their signed values. -/
theorem adderComputesTheResultAndFlags : Obligations.AdderComputesTheResultAndFlags := by
  intro w x y cin
  rw [← toInt_eq_sintOf, ← toInt_eq_sintOf]
  exact ⟨addWithCarry_result x y cin, sumFlags_addWithCarry x y cin⟩

/-- Settles O37: EQ, HI, CS, GE and GT read the flags of the difference; LS, LT and LE negate HI, GE and GT. -/
theorem conditionsAfterCompareReadAsTheirNames : Obligations.ConditionsAfterCompareReadAsTheirNames := by
  intro s w n m
  obtain ⟨⟨t, ht, hflags, -⟩, -⟩ := comparesSetTheFlagsOfTheDifference s w n m 0
  have hi := hi_iff_of_diffFlags hflags
  have ge : conditionHolds .ge t.flags ↔ sint s w m ≤ sint s w n :=
    ge_iff_of_diffFlags hflags (uint_lt s w n) (uint_lt s w m)
  have gt : conditionHolds .gt t.flags ↔ sint s w m < sint s w n :=
    gt_iff_of_diffFlags hflags (uint_lt s w n) (uint_lt s w m)
  refine ⟨t, ht, eq_iff_of_diffFlags hflags, hi, ?ls, cs_iff_of_diffFlags hflags, ge, ?lt, gt, ?le⟩
  case ls => rw [conditionHolds_odd_iff (even := .hi) rfl rfl, hi, not_lt]
  case lt => rw [conditionHolds_odd_iff (even := .ge) rfl rfl, ge, not_le]
  case le => rw [conditionHolds_odd_iff (even := .gt) rfl rfl, gt, not_lt]

/-- Settles O40: the register ending with the adder's result, of a register and an immediate. -/
theorem addSubImmediateWriteTheirResult : Obligations.AddSubImmediateWriteTheirResult := by
  intro s w d n imm12
  rw [← readReg_toNat_eq_uint, ← immOperand_toNat w]
  exact ⟨finishReg_writesReg s d (addFlags_result _ _), finishReg_writesReg s d (subFlags_result _ _)⟩

/-- Settles O41: the ending with flags, with the adder's result and flags. -/
theorem addsSubsImmediateWriteResultAndFlags : Obligations.AddsSubsImmediateWriteResultAndFlags := by
  intro s w d n imm12
  rw [← readReg_toNat_eq_uint, ← readReg_toInt_eq_sint, ← immOperand_toInt w, ← immOperand_toNat w]
  exact ⟨finishRegFlags_writesRegFlags s d (addFlags_result _ _) (sumFlags_addFlags _ _),
    finishRegFlags_writesRegFlags s d (subFlags_result _ _) (diffFlags_subFlags _ _)⟩

/-- Settles O42: as O40, of two registers. -/
theorem addSubRegisterWriteTheirResult : Obligations.AddSubRegisterWriteTheirResult := by
  intro s w d n m
  rw [← readReg_toNat_eq_uint, ← readReg_toNat_eq_uint]
  exact ⟨finishReg_writesReg s d (addFlags_result _ _), finishReg_writesReg s d (subFlags_result _ _)⟩

/-- Settles O43: as O41, of two registers. -/
theorem addsSubsRegisterWriteResultAndFlags : Obligations.AddsSubsRegisterWriteResultAndFlags := by
  intro s w d n m
  simp only [← readReg_toNat_eq_uint, ← readReg_toInt_eq_sint]
  exact ⟨finishRegFlags_writesRegFlags s d (addFlags_result _ _) (sumFlags_addFlags _ _),
    finishRegFlags_writesRegFlags s d (subFlags_result _ _) (diffFlags_subFlags _ _)⟩

/-- Settles O44: the register ending with the result of `a + b + C` and of `a + NOT b + C`. -/
theorem adcSbcWriteTheirResult : Obligations.AdcSbcWriteTheirResult := by
  intro s w d n m
  simp only [← readReg_toNat_eq_uint, carry_eq_toNat]
  exact ⟨finishReg_writesReg s d (addWithCarry_result _ _ _), finishReg_writesReg s d (addWithCarry_not_result _ _ _)⟩

/-- Settles O45: the ending with flags, with the result and flags of the same sums. -/
theorem adcsSbcsWriteResultAndFlags : Obligations.AdcsSbcsWriteResultAndFlags := by
  intro s w d n m
  simp only [← readReg_toNat_eq_uint, ← readReg_toInt_eq_sint, carry_eq_toNat]
  exact ⟨finishRegFlags_writesRegFlags s d (addWithCarry_result _ _ _) (sumFlags_addWithCarry _ _ _),
    finishRegFlags_writesRegFlags s d (addWithCarry_not_result _ _ _) (sumFlags_addWithCarry_not _ _ _)⟩

end Sys2Proof.Machine
end

section
/-! PROOFS of the multiply and divide family (43_multiply_divide.md): the quotients of the model in the numbers of the
statements (R110, R113, R114), and the four instructions that end with them and with the products (R111, R112). -/

namespace Sys2Proof.Machine

open Sys2Proof.Claims

/-- A division by zero gives 0 at the default of `DIV_ZERO` (R110). -/
theorem divByZero_zero_toNat (signed : Bool) {N : Nat} (a : BitVec N) : (divByZero .zero signed a).toNat = 0 := by
  rw [divByZero, BitVec.toNat_ofNat, Nat.zero_mod]

/-! ### The unsigned quotient (R113) -/

section UnsignedQuotient
variable (mode : DivZero) {N : Nat} (a : BitVec N) {b : BitVec N}

theorem unsignedQuotient_toNat_of_ne_zero (hb : b.toNat ≠ 0) :
    (unsignedQuotient mode a b).toNat = a.toNat / b.toNat := by
  rw [unsignedQuotient, if_neg hb, BitVec.toNat_ofNat]
  exact Nat.mod_eq_of_lt ((Nat.div_le_self _ _).trans_lt a.isLt)

theorem unsignedQuotient_toNat_of_eq_zero (hb : b.toNat = 0) : (unsignedQuotient .zero a b).toNat = 0 := by
  rw [unsignedQuotient, if_pos hb, divByZero_zero_toNat]

end UnsignedQuotient

/-! ### The signed quotient (R110, R114) -/

/-- Division rounded toward zero divides the magnitudes and multiplies the signs, as R110 writes it: the rounded
quotient has no sign only where the quotient of the magnitudes is 0. -/
theorem sign_mul_natAbs_div_eq_tdiv (a b : Int) :
    a.sign * b.sign * ((a.natAbs / b.natAbs : Nat) : Int) = a.tdiv b := by
  have hmagnitude : (a.tdiv b).natAbs = a.natAbs / b.natAbs := Int.natAbs_tdiv a b
  rw [← Int.sign_mul_natAbs (a.tdiv b), hmagnitude, Int.sign_tdiv]
  split
  case isTrue hlt => rw [Nat.div_eq_of_lt hlt, Nat.cast_zero, mul_zero, mul_zero]
  case isFalse => rfl

section SignedQuotient
variable (onZero : DivZero) {onOverflow : DivOverflow} {N : Nat} {x y : BitVec N}

/-- Outside the two cases left to the parameters the quotient wraps modulo `2^N`; under `wrap` so it does in the
overflow case. -/
theorem signedQuotient_toNat_of_ne_zero (hy : y.toInt ≠ 0)
    (hwrap : x.toInt = -2 ^ (N - 1) ∧ y.toInt = -1 → onOverflow = .wrap) :
    ((signedQuotient onZero onOverflow x y).toNat : Int) = x.toInt.tdiv y.toInt % 2 ^ N := by
  have hdefined : ¬ (x.toInt = -2 ^ (N - 1) ∧ y.toInt = -1 ∧ onOverflow = .uninterpreted) := by
    rintro ⟨hx, hy', rfl⟩
    exact nomatch hwrap ⟨hx, hy'⟩
  rw [signedQuotient, if_neg hy, if_neg hdefined, sign_mul_natAbs_div_eq_tdiv, BitVec.toNat_ofInt,
    Int.toNat_of_nonneg (Int.emod_nonneg _ (by positivity)), Nat.cast_pow, Nat.cast_ofNat]

theorem signedQuotient_toNat_of_eq_zero (hy : y.toInt = 0) : (signedQuotient .zero onOverflow x y).toNat = 0 := by
  rw [signedQuotient, if_pos hy, divByZero_zero_toNat]

end SignedQuotient

/-! ### The ending of a division -/

/-- The register ending for a result known by a property alone: a division by zero may write a free value (R110). -/
theorem finishReg_writesReg_of (s : State) {w : Width} (d : Reg) {v : BitVec w.bits} {P : Nat → Prop}
    (hv : P v.toNat) : ∃ t, finishReg w d v s = .next t ∧ ∃ q, WritesReg s t d q ∧ q < 2 ^ w.bits ∧ P q := by
  obtain ⟨t, ht, hwrites⟩ := finishReg_writesReg s d (v := v) rfl
  exact ⟨t, ht, v.toNat, hwrites, v.isLt, hv⟩

/-! ### The obligations -/

/-- Settles O48: the register ending with the signed quotient, in the case of each divisor. -/
theorem signedDivideWritesTheTruncatedQuotient : Obligations.SignedDivideWritesTheTruncatedQuotient := by
  intro s w d n m
  simp only [← readReg_toInt_eq_sint]
  refine finishReg_writesReg_of s d ⟨signedQuotient_toNat_of_ne_zero _, fun hzero hmode => ?_⟩
  rw [hmode]
  exact signedQuotient_toNat_of_eq_zero hzero

/-- Settles O46: the register ending with the product, and with the sum, cut to `N` bits. -/
theorem multiplyWritesTheLowBits : Obligations.MultiplyWritesTheLowBits := by
  intro s w d n m a
  simp only [← readReg_toNat_eq_uint]
  exact ⟨finishReg_writesReg s d (BitVec.toNat_ofNat _ _), finishReg_writesReg s d (BitVec.toNat_ofNat _ _)⟩

/-- Settles O47: the register ending with the unsigned quotient, in the case of each divisor. -/
theorem unsignedDivideWritesTheQuotient : Obligations.UnsignedDivideWritesTheQuotient := by
  intro s w d n m
  simp only [← readReg_toNat_eq_uint]
  refine finishReg_writesReg_of s d ⟨unsignedQuotient_toNat_of_ne_zero _ _, fun hzero hmode => ?_⟩
  rw [hmode]
  exact unsignedQuotient_toNat_of_eq_zero _ hzero

end Sys2Proof.Machine
end

section
/-! PROOFS of the logical and shift family (44_logical_shift.md): the bits of a register read and of a register
written (R11, R12), the flags of ANDS (R120), and the shifts as products and quotients by a power of two (R127). -/

namespace Sys2Proof.Machine

open Sys2Proof.Claims

/-! ### The bits of the operands (R11, R124, R126) -/

section Bits
variable (s : State) (w : Width) (k : Nat)

theorem readReg_getLsbD (r : Reg) : (s.readReg w r).getLsbD k = (decide (k < w.bits) && (s.x r).getLsbD k) :=
  BitVec.getLsbD_setWidth _ _ _

/-- The complement is taken within `N` bits. -/
theorem not_readReg_getLsbD (r : Reg) :
    (~~~(s.readReg w r)).getLsbD k = (decide (k < w.bits) && !(s.x r).getLsbD k) := by
  rw [BitVec.getLsbD_not, readReg_getLsbD, Bool.not_and, Bool.and_or_distrib_left, Bool.and_not_self, Bool.false_or]

theorem and_readReg_getLsbD (n m : Reg) :
    (s.readReg w n &&& s.readReg w m).getLsbD k =
      (decide (k < w.bits) && ((s.x n).getLsbD k && (s.x m).getLsbD k)) := by
  rw [BitVec.getLsbD_and, readReg_getLsbD, readReg_getLsbD, Bool.and_assoc, Bool.and_left_comm (BitVec.getLsbD _ k),
    Bool.and_self_left]

end Bits

/-! ### The register written, bit by bit (R12, R120) -/

section Written
variable (s : State) {w : Width} (d : Reg) (v : BitVec w.bits)

/-- The register written has the bits of the value; bits 63:N are clear, as they are in it. -/
theorem writeReg_x_getLsbD (k : Nat) : ((s.writeReg w d v).x d).getLsbD k = v.getLsbD k := by
  rw [State.writeReg_x_same, BitVec.getLsbD_setWidth, Bool.and_eq_right_iff_imp, decide_eq_true_eq]
  exact fun hbit => (BitVec.lt_of_getLsbD hbit).trans_le w.bits_le

theorem writeReg_x_eq_zero_iff : (s.writeReg w d v).x d = 0#64 ↔ v = 0#w.bits := by
  rw [State.writeReg_x_same, BitVec.toNat_eq, BitVec.toNat_setWidth_of_le w.bits_le, BitVec.toNat_eq]
  rfl

variable {v}

theorem finishReg_writesBits {bits : Nat → Bool} (hv : ∀ k, v.getLsbD k = (decide (k < w.bits) && bits k)) :
    ∃ t, finishReg w d v s = .next t ∧ t.flags = s.flags ∧ Frame s t d ∧
      ∀ k, (t.x d).getLsbD k = (decide (k < w.bits) && bits k) :=
  ⟨(s.writeReg w d v).advance, rfl, rfl, frame_writeReg s d v,
    fun k => (writeReg_x_getLsbD s d v k).trans (hv k)⟩

end Written

/-! ### Shifts in numbers (R127 to R131) -/

/-- An amount below the width is itself modulo the width. -/
theorem ite_lt_eq_ite_le_mod {α : Type} (shift : Nat → α) (zero : α) (k N : Nat) :
    (if k < N then shift k else zero) = if N ≤ k then zero else shift (k % N) := by
  by_cases hk : k < N
  · rw [if_pos hk, if_neg (Nat.not_le.2 hk), Nat.mod_eq_of_lt hk]
  · rw [if_neg hk, if_pos (Nat.not_lt.1 hk)]

section Shifts
variable {N : Nat} (v : BitVec N)

theorem shiftLeft_toNat (k : Nat) : (v <<< k).toNat = v.toNat * 2 ^ k % 2 ^ N := by
  rw [BitVec.toNat_shiftLeft, Nat.shiftLeft_eq]

theorem ushiftRight_toNat (k : Nat) : (v >>> k).toNat = v.toNat / 2 ^ k := by
  rw [BitVec.toNat_ushiftRight, Nat.shiftRight_eq_div_pow]

variable (mode : ShiftRegAmount) (amount : BitVec N)

/-- Under either setting of `SHIFT_REG_AMOUNT` the shift is by the amount modulo `N`, but where `saturate` gives 0. -/
theorem shiftLeftReg_toNat :
    (shiftLeftReg mode v amount).toNat =
      if mode = .saturate ∧ N ≤ amount.toNat then 0 else v.toNat * 2 ^ (amount.toNat % N) % 2 ^ N := by
  rw [← shiftLeft_toNat]
  cases mode with
  | modulo => simp [shiftLeftReg]
  | saturate => simp [shiftLeftReg, ite_lt_eq_ite_le_mod (v <<< ·), apply_ite BitVec.toNat]

theorem shiftRightReg_toNat :
    (shiftRightReg mode v amount).toNat =
      if mode = .saturate ∧ N ≤ amount.toNat then 0 else v.toNat / 2 ^ (amount.toNat % N) := by
  rw [← ushiftRight_toNat]
  cases mode with
  | modulo => simp [shiftRightReg]
  | saturate => simp [shiftRightReg, ite_lt_eq_ite_le_mod (v >>> ·), apply_ite BitVec.toNat]

end Shifts

/-! ### The obligations -/

/-- Settles O49: the register ending, where cutting to `N` bits distributes over each operation. -/
theorem logicalInstructionsWorkBitByBit : Obligations.LogicalInstructionsWorkBitByBit := by
  intro s w d n m
  refine ⟨finishReg_writesBits s d fun k => and_readReg_getLsbD s w k n m, finishReg_writesBits s d fun k => ?orr,
    finishReg_writesBits s d fun k => ?orn, finishReg_writesBits s d fun k => ?eor,
    finishReg_writesBits s d fun k => ?eon⟩
  case orr => rw [BitVec.getLsbD_or, readReg_getLsbD, readReg_getLsbD, Bool.and_or_distrib_left]
  case orn => rw [BitVec.getLsbD_or, readReg_getLsbD, not_readReg_getLsbD, Bool.and_or_distrib_left]
  case eor => rw [BitVec.getLsbD_xor, readReg_getLsbD, readReg_getLsbD, Bool.and_xor_distrib_left]
  case eon => rw [BitVec.getLsbD_xor, readReg_getLsbD, not_readReg_getLsbD, Bool.and_xor_distrib_left]

/-- Settles O50: N and Z are those of the conjunction, and the register written has its bits. -/
theorem andsSetsNegativeAndZeroAndClearsCarryAndOverflow :
    Obligations.AndsSetsNegativeAndZeroAndClearsCarryAndOverflow := by
  intro s w d n m
  have hbits := writeReg_x_getLsbD s d (s.readReg w n &&& s.readReg w m)
  refine ⟨_, rfl, frame_writeReg s d _, fun k => (hbits k).trans (and_readReg_getLsbD s w k n m), ?negative,
    beq_iff_eq.trans (writeReg_x_eq_zero_iff s d _).symm, rfl, rfl⟩
  case negative => exact (BitVec.msb_eq_getLsbD_last _).trans (hbits _).symm

/-- Settles O52: the register ending with the shifts by an amount in a register. -/
theorem registerShiftsMoveTheBits : Obligations.RegisterShiftsMoveTheBits := by
  intro s w d n m
  simp only [← readReg_toNat_eq_uint]
  exact ⟨finishReg_writesReg s d (shiftLeftReg_toNat _ _ _), finishReg_writesReg s d (shiftRightReg_toNat _ _ _)⟩

/-- Settles O51: the register ending with the shifts; for them the amount need not be in range. -/
theorem immediateShiftsMoveTheBits : Obligations.ImmediateShiftsMoveTheBits := by
  intro s w d n shift _
  rw [← readReg_toNat_eq_uint]
  exact ⟨finishReg_writesReg s d (shiftLeft_toNat _ _), finishReg_writesReg s d (ushiftRight_toNat _ _)⟩

end Sys2Proof.Machine
end

section
/-! PROOFS of the load and store family (45_load_store.md): the address of an access (R140), the bytes of a value and
where they stand in memory under either byte order (R32, log entry 7), and what a load reads and a store writes
(R141 to R144). -/

namespace Sys2Proof.Machine

open Sys2Proof.Claims

/-! ### The bytes of a value, and their places (R32) -/

/-- Bits `8k+7 : 8k` of a value are byte `k` of its number. -/
theorem extractLsb'_byte {N : Nat} (v : BitVec N) (k : Nat) :
    v.extractLsb' (8 * k) 8 = BitVec.ofNat 8 (v.toNat / 256 ^ k) := by
  have hpow : 2 ^ (8 * k) = 256 ^ k := Nat.pow_mul 2 8 k
  rw [BitVec.extractLsb', Nat.shiftRight_eq_div_pow, hpow]

theorem littleEndianBytes_toNat_getElem? {N n k : Nat} (v : BitVec N) (hk : k < n) :
    (littleEndianBytes n v.toNat)[k]? = some (v.extractLsb' (8 * k) 8) := by
  rw [List.getElem?_eq_getElem (by simpa using hk), littleEndianBytes_getElem, extractLsb'_byte]

theorem getElem?_eq_extractLsb'_littleEndian {l : List Byte} {n k : Nat} (hl : l.length = n) (hk : k < n) :
    l[k]? = some ((BitVec.ofNat (8 * n) (littleEndian l)).extractLsb' (8 * k) 8) := by
  subst hl
  have hlt : littleEndian l < 2 ^ (8 * l.length) := (littleEndian_lt l).trans_eq (Nat.pow_mul 2 8 l.length).symm
  rw [List.getElem?_eq_getElem hk, extractLsb'_byte, BitVec.toNat_ofNat, Nat.mod_eq_of_lt hlt, Option.some.injEq]
  apply BitVec.eq_of_toNat_eq
  rw [BitVec.toNat_ofNat, ← littleEndian_div_mod l k hk]

theorem place_lt (s : State) {n k : Nat} (hk : k < n) : place s n k < n := by
  unfold place
  split <;> omega

/-- Laid out in the byte order of the launch, byte `k` stands at its place. -/
theorem dataOrder_getElem?_place (s : State) {l : List Byte} {n k : Nat} (hl : l.length = n) (hk : k < n) :
    (dataOrder s.launch.bigEndian l)[place s n k]? = l[k]? := by
  subst hl
  unfold dataOrder place
  cases s.launch.bigEndian with
  | false => rfl
  | true =>
    have hback : l.length - 1 - (l.length - 1 - k) = k := by omega
    rw [if_pos rfl, if_pos rfl, List.getElem?_reverse (by omega), hback]

/-! ### What an access that meets no fault reads and writes (R34, R35) -/

/-- A mapped byte is data: the text is disjoint from `MAPPED` (R31). -/
theorem State.byteAt_of_dataMapped {s : State} {a : Addr} (h : s.launch.dataMapped a = true) :
    s.byteAt a = some (s.mem.read a.toNat) := by
  have hcode : s.launch.inCode a ≠ true := fun hin => by simp [dataMapped_of_inCode hin] at h
  rw [State.byteAt, if_neg hcode, if_pos h]

/-- The bytes a store has written, from its address up (R35). -/
theorem Memory.some_read_writeBytes {m : Memory} (hm : m.wf) (addr : Addr) {bytes : List Byte} {k : Nat}
    (hlen : bytes.length ≤ 2 ^ 64) (hk : k < bytes.length) :
    some ((m.writeBytes addr bytes).read (byteAddr addr k).toNat) = bytes[k]? := by
  obtain ⟨hsorted, -⟩ := hm
  rw [Memory.read_writeBytes_same hsorted addr bytes hlen k hk, List.getElem?_eq_getElem hk]

section Access
variable {s : State} {a : Addr} {n : Nat}

theorem accessFault?_of_accessible (h : Accessible s a n) : accessFault? s a n = none :=
  (accessFault?_eq_none_iff s a n).2 h

/-- The value read has the bytes of memory, each in its place. -/
theorem memRead_of_accessible (h : Accessible s a n) :
    ∃ v, memRead s a n = .ok v ∧
      ∀ k < n, s.byteAt (byteAddr a (place s n k)) = some (v.extractLsb' (8 * k) 8) := by
  refine ⟨_, by rw [memRead, accessFault?_of_accessible h], fun k hk => ?_⟩
  have hplace := place_lt s hk
  have hlen : (dataOrder s.launch.bigEndian (s.mem.readBytes a n)).length = n := by simp
  obtain ⟨-, hmapped⟩ := h
  rw [← getElem?_eq_extractLsb'_littleEndian hlen hk, ← dataOrder_getElem?_place s hlen hk, dataOrder_dataOrder,
    Memory.readBytes_getElem? _ _ _ _ hplace]
  exact State.byteAt_of_dataMapped (hmapped _ hplace)

/-- A store that meets no fault writes the low bytes of the value, each in its place. -/
theorem finishStore_stores (hm : s.mem.wf) (hn : n ≤ 2 ^ 64) (h : Accessible s a n) (v : Word64) :
    ∃ t, finishStore (memWrite s a n (v.setWidth (8 * n))) = .next t ∧ Stores s t a n v := by
  refine ⟨_, by rw [memWrite, accessFault?_of_accessible h, finishStore], fun k hk => ?bytes,
    fun q hq => store_frame s a q n _ hq, fun _ => rfl, rfl, rfl, rfl⟩
  case bytes =>
    have hplace := place_lt s hk
    obtain ⟨-, hmapped⟩ := h
    have hlow : (v.setWidth (8 * n)).extractLsb' (8 * k) 8 = v.extractLsb' (8 * k) 8 :=
      BitVec.extractLsb'_setWidth_of_le (by omega)
    rw [← hlow, ← littleEndianBytes_toNat_getElem? _ hk, ← dataOrder_getElem?_place s (by simp) hk]
    refine Eq.trans (State.byteAt_of_dataMapped ?_) (Memory.some_read_writeBytes hm a ?_ ?_)
    · exact hmapped _ hplace
    · simpa using hn
    · simpa using hplace

end Access

/-! ### The obligations -/

/-- Settles O56: the register ending with the value read, which its width holds whole. -/
theorem loadReadsTheBytesAtItsAddress : Obligations.LoadReadsTheBytesAtItsAddress := by
  intro s w rt n imm12 haccess
  obtain ⟨v, hread, hbytes⟩ := memRead_of_accessible haccess
  refine ⟨(s.writeReg w rt (v.setWidth w.bits)).advance, by rw [exec, execLdr, hread]; rfl, rfl,
    frame_writeReg s rt _, ?_, fun k hk => ?_⟩
  · rw [State.advance_x, State.writeReg_x_same, BitVec.toNat_setWidth_of_le w.bits_le]
    exact BitVec.isLt _
  · have hbits : 8 * k + 8 ≤ w.bits := by
      cases w <;> simp only [Width.bits, Width.bytes] at hk ⊢ <;> omega
    rw [State.advance_x, State.writeReg_x_same, BitVec.extractLsb'_setWidth_of_le (hbits.trans w.bits_le),
      BitVec.extractLsb'_setWidth_of_le hbits]
    exact hbytes k hk

/-- Settles O57: the store of the register's low bytes, as many as the width has. -/
theorem storeWritesTheRegisterAtItsAddress : Obligations.StoreWritesTheRegisterAtItsAddress :=
  fun s w rt _ _ hwf haccess => finishStore_stores hwf (by cases w <;> decide) haccess (s.x rt)

/-- Settles O58: the stores of one byte and of two; a byte access is aligned at every address. -/
theorem narrowStoresWriteTheLowBytes : Obligations.NarrowStoresWriteTheLowBytes := by
  intro s rt n imm12 hwf
  refine ⟨fun hmapped => ?_, fun haccess => finishStore_stores hwf (by decide) haccess (s.x rt)⟩
  have haccess : Accessible s (accessAddress s n imm12 1) 1 := by
    refine ⟨fun _ => Nat.mod_one _, fun k hk => ?_⟩
    rwa [Nat.lt_one_iff.1 hk, BitVec.add_zero]
  exact finishStore_stores hwf (by decide) haccess (s.x rt)

/-- Settles O55, for every access size: the sum and the scaled offset are both taken modulo `2^64`. -/
theorem accessAddressIsBasePlusScaledOffset : Obligations.AccessAddressIsBasePlusScaledOffset := by
  intro s n imm12 sz _
  rw [accessAddress, BitVec.toNat_add, BitVec.toNat_ofNat, Nat.add_mod_mod]

end Sys2Proof.Machine
end

section
/-! PROOFS of the move family (46_move.md): the register or immediate a MOV writes, as a number (R150, R151). -/

namespace Sys2Proof.Machine

open Sys2Proof.Claims

/-- Settles O54: the register ending with the register read, and with the immediate, which 32 bits hold whole. -/
theorem movesWriteTheirSource : Obligations.MovesWriteTheirSource := by
  intro s w d m imm16
  have himm : (imm16.setWidth 32).toNat = imm16.toNat := BitVec.toNat_setWidth_of_le (by decide)
  exact ⟨finishReg_writesReg s d (readReg_toNat_eq_uint s w m), finishReg_writesReg (w := .w32) s d himm⟩

end Sys2Proof.Machine
end

section
/-! PROOFS of the exceptions family (60_exceptions.md): when a fetch ends the run or faults (R162, R163), which fault
an instruction raises (R164), and what follows for a step (R161 to R164, R167). -/

namespace Sys2Proof.Machine

open Sys2Proof.Claims

/-! ### Where a fetch finds no word (R162, R163, R183, R184) -/

theorem codeWord?_eq_none_iff {l : Launch} {a : Addr} : l.codeWord? a = none ↔ l.inCode a = false := by
  rw [← codeWord?_isSome, Option.isSome_eq_false_iff, Option.isNone_iff_eq_none]

theorem fetch_ended_iff {s : State} : fetch s = .ended ↔ s.pc.toNat % 4 = 0 ∧ s.launch.isExit s.pc = true := by
  unfold fetch
  by_cases haligned : s.pc.toNat % 4 = 0
  · cases s.launch.isExit s.pc with
    | true => simp [haligned]
    | false => cases s.launch.codeWord? s.pc <;> simp [haligned]
  · simp [haligned]

/-- Everything a fetch that faults can be, in the order of its tests. -/
theorem fetch_abort_iff {s : State} {f : Fault} :
    fetch s = .abort f ↔
      (f = .pcAlignmentFault s.pc ∧ s.pc.toNat % 4 ≠ 0) ∨
        (s.pc.toNat % 4 = 0 ∧ s.launch.isExit s.pc = false ∧ f = .fetchAbort s.pc ∧
          s.launch.inCode s.pc = false) := by
  rw [← codeWord?_eq_none_iff]
  unfold fetch
  by_cases haligned : s.pc.toNat % 4 = 0
  · cases s.launch.isExit s.pc with
    | true => simp [haligned]
    | false => cases s.launch.codeWord? s.pc <;> simp [haligned, eq_comm (b := f)]
  · simp [haligned, eq_comm (b := f)]

/-! ### Which fault an instruction raises (R140, R164, R167) -/

section Access
variable {s : State} {a : Addr} {f : Fault}

theorem finishLoad_fault_iff {w : Width} {t : Reg} :
    finishLoad w t (memRead s a w.bytes) s = .fault f ↔ accessFault? s a w.bytes = some f := by
  rw [memRead]
  cases accessFault? s a w.bytes <;> simp [finishLoad, finishReg, raise]

theorem finishStore_fault_iff {n : Nat} {v : BitVec (8 * n)} :
    finishStore (memWrite s a n v) = .fault f ↔ accessFault? s a n = some f := by
  rw [memWrite]
  cases accessFault? s a n <;> simp [finishStore, raise]

/-- A load or store raises the fault its access meets, and no other instruction raises one. -/
theorem exec_fault_iff {i : Instr} :
    exec i s = .fault f ↔ ∃ sz a, accessOf s i = some (sz, a) ∧ accessFault? s a sz = some f := by
  cases i
  case ldr => simp [exec, execLdr, accessOf, finishLoad_fault_iff]
  case str | strb | strh => simp [exec, execStr, execStrb, execStrh, accessOf, finishStore_fault_iff]
  case bCond => simp [exec_bCond, accessOf]
  all_goals exact ⟨nofun, fun ⟨_, _, hacc, _⟩ => nomatch hacc⟩

end Access

/-! ### Where a step leaves `pc` (R8, R16, R163) -/

theorem next_pc_aligned {s : State} (h : s.pc.toNat % 4 = 0) : (s.pc + 4#64).toNat % 4 = 0 := by
  bv_omega

theorem branchTarget_aligned {s : State} (h : s.pc.toNat % 4 = 0) {k : Nat} (hk : k + 2 ≤ 64) (imm : BitVec k) :
    (branchTarget s imm).toNat % 4 = 0 := by
  have htarget := branchTarget_toNat s hk imm
  omega

/-- From an aligned `pc` every instruction but BR and BLR goes to the next one or to a branch target. -/
theorem exec_pc_aligned {i : Instr} {s t : State} (h : exec i s = .next t) (hs : s.pc.toNat % 4 = 0)
    (hbr : ∀ n, i ≠ .br n) (hblr : ∀ n, i ≠ .blr n) : t.pc.toNat % 4 = 0 := by
  have hnext := next_pc_aligned hs
  cases i
  case b | bl => cases h; exact branchTarget_aligned hs (by decide) _
  case bCond =>
    rw [exec_bCond] at h
    cases h
    rw [State.setPc_pc]
    split
    · exact branchTarget_aligned hs (by decide) _
    · exact hnext
  case br n => exact absurd rfl (hbr n)
  case blr n => exact absurd rfl (hblr n)
  case ldr => obtain ⟨v, -, rfl⟩ := finishLoad_next h; exact hnext
  case str | strb | strh => obtain ⟨-, rfl⟩ := finishStore_next h; exact hnext
  all_goals cases h; exact hnext

/-! ### The obligations -/

/-- Settles O19: a misaligned `pc` is a fetch's first test; a word is fetched at an aligned one, from which
`exec_pc_aligned` leaves BR and BLR alone, and BLR writes the link. -/
theorem misalignedPcFaultsAndComesOnlyFromBrOrBlr : Obligations.MisalignedPcFaultsAndComesOnlyFromBrOrBlr := by
  refine ⟨fun s hs => step_of_abort (fetch_abort_iff.2 (.inl ⟨rfl, hs⟩)), fun s t h ht => ?_⟩
  rcases step_next h with ⟨hended, rfl⟩ | ⟨I, i, hfetch, hd, hexec⟩
  · exact absurd (fetch_ended_iff.1 hended).1 ht
  · obtain ⟨haligned, -, hword⟩ := fetch_word_iff.1 hfetch
    by_cases hbr : ∃ n, i = .br n
    · obtain ⟨n, rfl⟩ := hbr
      exact ⟨I, n, hword, .inl hd⟩
    by_cases hblr : ∃ n, i = .blr n
    · obtain ⟨n, rfl⟩ := hblr
      cases hexec
      exact ⟨I, n, hword, .inr ⟨hd, link_x_lr s _ _⟩⟩
    · exact absurd (exec_pc_aligned hexec haligned (not_exists.1 hbr) (not_exists.1 hblr)) ht

/-- Settles O23, along the cases of a step: the fault is the fetch's, the decoder's, or that of the access. -/
theorem everyFaultHasItsCauseInOrder : Obligations.EveryFaultHasItsCauseInOrder := by
  intro s f h
  cases hfetch : fetch s with
  | ended => simp [step_of_ended hfetch] at h
  | abort g =>
    rw [step_of_abort hfetch] at h
    cases h
    rcases fetch_abort_iff.1 hfetch with hpc | ⟨haligned, hexit, hcause⟩
    · exact .inl hpc
    · exact .inr ⟨haligned, hexit, .inl hcause⟩
  | word I =>
    obtain ⟨haligned, hexit, hword⟩ := fetch_word_iff.1 hfetch
    refine .inr ⟨haligned, hexit, .inr ⟨I, hword, ?_⟩⟩
    cases hd : decode s.launch.decoding I with
    | error e =>
      rw [step_of_decode_error hfetch hd] at h
      cases h
      exact .inl ⟨rfl, e, rfl⟩
    | ok i =>
      rw [step_of_decode_ok hfetch hd] at h
      obtain ⟨sz, a, hacc, hfault⟩ := exec_fault_iff.1 h
      exact .inr ⟨i, sz, a, rfl, hacc, (accessFault?_eq_some_iff s a sz f).1 hfault⟩

/-- Settles O59: the two faults an access can meet, and STRB's access is of one byte. -/
theorem faultingAccessesStop : Obligations.FaultingAccessesStop := by
  intro s i sz a hacc
  have hstop {f : Fault} (hfault : accessFault? s a sz = some f) : exec i s = .fault f :=
    exec_fault_iff.2 ⟨sz, a, hacc, hfault⟩
  refine ⟨fun hstrict hmis => ?_, fun halign hunmapped => ?_, ?_⟩
  · exact hstop ((accessFault?_eq_some_iff s a sz _).2 (.inl ⟨rfl, hstrict, hmis⟩))
  · exact hstop ((accessFault?_eq_some_iff s a sz _).2 (.inr ⟨rfl, halign, hunmapped⟩))
  · rintro rt n imm12 rfl
    cases hacc
    exact Nat.mod_one _

/-- Settles O20: no word of `CODE` stands outside the code region. -/
theorem fetchOutsideTheCodeAborts : Obligations.FetchOutsideTheCodeAborts :=
  fun _ haligned hcode hexit => step_of_abort (fetch_abort_iff.2 (.inr ⟨haligned, hexit, rfl, hcode⟩))

/-- Settles O21: the three conditions on `pc` are those under which a fetch finds the word. -/
theorem unallocatedWordIsUndefined : Obligations.UnallocatedWordIsUndefined :=
  fun _ _ _ haligned hexit hword hd => step_of_decode_error (fetch_word_iff.2 ⟨haligned, hexit, hword⟩) hd

end Sys2Proof.Machine
end

section
/-! PROOFS of the reset and hazards family (70_reset_and_hazards.md): what a fetch finds at an entry (R180, R183,
R184), and the launch that puts a word where the next fetch reads (log entries 5, 6). -/

namespace Sys2Proof.Machine

/-! ### A fetch at an entry (R180, R184) -/

theorem admitsEntry_iff {l : Launch} {a : Addr} :
    l.admitsEntry a = true ↔ a.toNat % 4 = 0 ∧ l.inCode a = true := by
  rw [Launch.admitsEntry, Bool.and_eq_true, decide_eq_true_eq]

theorem codeWord?_of_inCode {l : Launch} {a : Addr} (h : l.inCode a = true) : ∃ I, l.codeWord? a = some I :=
  Option.isSome_iff_exists.1 ((codeWord?_isSome l a).trans h)

/-- At an entry of a well-formed text a fetch finds the word that stands there. -/
theorem fetch_of_admitsEntry {s : State} {I : InstrWord} (hwf : s.launch.wf = true)
    (hentry : s.launch.admitsEntry s.pc = true) (hword : s.launch.codeWord? s.pc = some I) : fetch s = .word I := by
  obtain ⟨haligned, hcode⟩ := admitsEntry_iff.1 hentry
  exact fetch_word_iff.2 ⟨haligned, isExit_of_inCode hwf hcode, hword⟩

/-! ### The launched word (R67, R180; log entries 5, 6) -/

/-- `I` stands at `a`, a multiple of 4 past the base of a text with at most one more word; decoding is as before. -/
theorem placeWord_at (l : Launch) (a : Addr) (I : InstrWord) :
    (a - (l.placeWord a I).codeBase).toNat % 4 = 0 ∧
      (l.placeWord a I).code[(a - (l.placeWord a I).codeBase).toNat / 4]? = some I ∧
      (l.placeWord a I).code.length ≤ l.code.length + 1 ∧ (l.placeWord a I).decoding = l.decoding := by
  unfold Launch.placeWord
  dsimp only
  split
  case isTrue hword =>
    obtain ⟨hbegin, hlt⟩ := hword
    exact ⟨hbegin, List.getElem?_set_self hlt, by simp, rfl⟩
  case isFalse =>
    split
    case isTrue hend =>
      have hindex : (a - l.codeBase).toNat / 4 = l.code.length := by omega
      refine ⟨?_, ?_, by simp, rfl⟩
      · exact hend ▸ Nat.mul_mod_right 4 _
      · exact hindex ▸ List.getElem?_concat_length
    case isFalse => exact ⟨by simp, by simp, by simp, rfl⟩

/-- The text with `I` placed at a multiple of 4 is well formed, if one more word does not overlap the text. -/
theorem wf_placeWord {l : Launch} {a : Addr} (I : InstrWord) (ha : a.toNat % 4 = 0)
    (hl : 4 * (l.code.length + 1) < 2 ^ 64) : (l.placeWord a I).wf = true := by
  obtain ⟨hbegin, -, hlen, -⟩ := placeWord_at l a I
  have hbase : (l.placeWord a I).codeBase.toNat % 4 = 0 := by bv_omega
  rw [Launch.wf, decide_eq_true hbase, Bool.true_and, decide_eq_true_eq]
  omega

theorem codeWord?_placeWord (l : Launch) {a : Addr} (I : InstrWord) (ha : a.toNat % 4 = 0) :
    (l.placeWord a I).codeWord? a = some I := by
  obtain ⟨-, hI, -, -⟩ := placeWord_at l a I
  exact codeWord?_eq_some_iff.2 ⟨(admitsEntry_iff.1 (admitsEntry_placeWord l I ha)).2, hI⟩

/-- Admitting the optional encodings changes no word that decodes: the instruction's word is the same (R67). -/
theorem decode_admitting_of_decode_ok {p : DecodeParams} {I : InstrWord} {i : Instr} (hp : p.cond1111 = .refuse)
    (h : decode p I = .ok i) : decode .admitting I = .ok i := by
  obtain ⟨hword, hwf, hcanonical⟩ := encodeOfDecodeIsTheWord p I i hp h
  obtain ⟨hd, -⟩ := decodeOfEncodeIsTheInstruction .admitting i hwf fun _ => rfl
  rwa [hword, hcanonical] at hd

/-- `admitFor` changes the decoding alone, and so that the word decodes as with the optional encodings. -/
theorem admitFor_decodes {l : Launch} {I : InstrWord} {i : Instr} (hl : l.decoding.cond1111 = .refuse)
    (h : decode .admitting I = .ok i) :
    ∃ p, l.admitFor I = { l with decoding := p } ∧ decode p I = .ok i := by
  have hadmitted : { l.decoding with admitShiftEncodings := true } = DecodeParams.admitting := by
    simp [hl, DecodeParams.admitting, DecodeParams.initial]
  rw [Launch.admitFor, hadmitted, h]
  cases hd : decode l.decoding I with
  | error e => exact ⟨.admitting, rfl, h⟩
  | ok j =>
    rw [decode_admitting_of_decode_ok hl hd] at h
    exact ⟨l.decoding, rfl, hd.trans h⟩

/-- Four bytes in the order of R33 are decoded as the word they spell. -/
theorem decodeBytes_littleEndianBytes (p : DecodeParams) (I : InstrWord) :
    decodeBytes p (littleEndianBytes 4 I.toNat) = (decode p I).map fun i => (i, []) := by
  have hspelt : BitVec.ofNat 32 (littleEndian (littleEndianBytes 4 I.toNat)) = I :=
    ofNat_littleEndian_dataOrder false 4 I
  simp only [littleEndianBytes] at hspelt
  simp only [littleEndianBytes, decodeBytes, hspelt]
  cases decode p I with
  | error e => rfl
  | ok i => rfl

theorem decode_of_decodeTableWord {nbits w : Nat} {i : Instr} (h : decodeTableWord nbits w = some i) :
    decode .admitting (tableWord nbits w) = .ok i := by
  rw [decodeTableWord, decodeBytes_littleEndianBytes] at h
  cases hd : decode .admitting (tableWord nbits w) with
  | error e => simp [hd, Except.map] at h
  | ok j => simpa [hd, Except.map] using h

/-! ### The obligations -/

/-- Settles O17: an entry of a well-formed text is no `EXIT` address, and a word of `CODE` stands there. -/
theorem launchBeginsWithAWordOfTheText : Obligations.LaunchBeginsWithAWordOfTheText := by
  rintro s ⟨hwf, hentry, -⟩
  obtain ⟨haligned, hcode⟩ := admitsEntry_iff.1 hentry
  obtain ⟨I, hword⟩ := codeWord?_of_inCode hcode
  have hfetch := fetch_of_admitsEntry hwf hentry hword
  refine ⟨haligned, hcode, by rw [State.ended, isExit_of_inCode hwf hcode, Bool.and_false], I,
    (codeWord?_eq_some_iff.1 hword).2, fun i hd => ?_, fun e hd => ?_⟩
  · exact step_of_decode_ok hfetch hd
  · exact step_of_decode_error hfetch hd

/-- Settles O18: the placed word stands at an entry of a well-formed text, and is admitted where it needs it. -/
theorem launchedWordIsFetchedAndRun : Obligations.LaunchedWordIsFetchedAndRun := by
  intro s w i haligned hlen hcond htable
  obtain ⟨-, -, -, hdecoding⟩ := placeWord_at s.launch s.pc (tableWord 32 w)
  obtain ⟨p, hlaunch, hd⟩ := admitFor_decodes (hdecoding ▸ hcond) (decode_of_decodeTableWord htable)
  have hentry := admitsEntry_placeWord s.launch (tableWord 32 w) haligned
  rw [State.withFetchWord, launchWith, hlaunch]
  exact ⟨hentry, step_of_decode_ok (fetch_of_admitsEntry (wf_placeWord _ haligned hlen) hentry
    (codeWord?_placeWord _ _ haligned)) hd⟩

/-- Settles O22: a fetch at an `EXIT` address ends the run, and `EXIT` is defined by the two cases. -/
theorem runEndsAtExitAddresses : Obligations.RunEndsAtExitAddresses := by
  refine ⟨fun s haligned hexit => step_of_ended (fetch_ended_iff.2 ⟨haligned, hexit⟩), fun l a => ?_⟩
  simp [Launch.isExit, Launch.codeEnd]

end Sys2Proof.Machine
end
